-- ==== Sys2Proof/Word.lean ====
section
/-! DEFINITION. The words of the block (spec 00_scope R6, 30_encoding R45, R46, R52, 40_numerics R65). -/

namespace Sys2Proof

/-- An index: `IDXW` = 32 bits, unsigned (R6, R80). -/
abbrev Index := BitVec 32

/-- One of the two 64-bit operand slots of a command word (R45). -/
abbrev Slot := BitVec 64

/-- A sample word of type `T`, kept as `zext_64` of its `FLEN`-bit pattern: the form in which the operand slots
(R46), the responses (R54) and `FVAL` (R130) carry it. At `FLEN` = 32 bits 63:32 of a legal sample are 0. -/
abbrev Sample := BitVec 64

/-- The opcode field of a command word (R45). -/
abbrev Opcode := BitVec 8

/-- A command word: `CW` = 136 bits, `op` 135:128, `a` 127:64, `b` 63:0 (R6, R45). -/
abbrev CommandWord := BitVec 136

/-- A response word: `RW` = 72 bits, `status` 71:64, `value` 63:0 (R6, R52). -/
abbrev ResponseWord := BitVec 72

end Sys2Proof
end

