-- ==== Sys2Proof/Config.lean ====
section
/-! DEFINITION. What one implementation of the block fixes: the OPEN parameters of spec 00_scope R6.
No step writes them (10_state R25). -/

namespace Sys2Proof

/-- `FLEN`, the width of the sample type, and with it the sample format (R6, R65). -/
inductive Flen where
  | f32   -- `FLEN` = 32: IEEE 754 binary32
  | f64   -- `FLEN` = 64: IEEE 754 binary64
deriving DecidableEq, Repr

/-- `PHASE_WRAP`: how `LFO.NEXT` brings the phase back after an advance (R6, R113, R114). -/
inductive PhaseWrap where
  | reset   -- one conditional reset to +0 (R113)
  | frac    -- the phase less its floor (R114)
deriving DecidableEq, Repr

/-- Which sine function the block has (R6, R84, R85): the spec's reference, or number `k` of a family of functions of
which nothing is known. -/
inductive Sine where
  | reference          -- the correctly rounded sine (R85)
  | unknown (k : Nat)  -- any function with properties S1 to S4 (R84)
deriving DecidableEq, Repr

/-- The parameters of one block (R6). `CW`, `RW` and `IDXW` are fixed and stand in the types of `Word`. -/
structure Config where
  /-- `FLEN` -/
  flen : Flen
  /-- `DEPTH`, the words of sample storage -/
  depth : Nat
  /-- `MAXCH`, the write-cursor registers -/
  maxch : Nat
  /-- `PHASE_WRAP` -/
  phaseWrap : PhaseWrap
  /-- `fsin` -/
  sine : Sine
deriving DecidableEq, Repr

/-- The range R6 gives the parameters: 1 <= `MAXCH` <= `DEPTH` < 2^32. -/
abbrev Config.wf (c : Config) : Prop := 1 ≤ c.maxch ∧ c.maxch ≤ c.depth ∧ c.depth < 2 ^ 32

/-- The parameters the vectors of 95_test_vectors take unless one says otherwise (`DEPTH` = 1024, `MAXCH` = 8), with the
default `PHASE_WRAP` (R6), the reference sine (R85) and `FLEN` = 64.
DESIGN CHOICE (log 1, unsafe): R6 leaves them OPEN; only `State.reset` and `decodeTableWord` take this choice. -/
def Config.standard : Config :=
  { flen := .f64, depth := 1024, maxch := 8, phaseWrap := .reset, sine := .reference }

/-- FREE VALUE (log 5, safe): the raw values of the sine functions of which the spec fixes only S1 to S4. Nothing is known
of it; `Machine.fsin` imposes S1 to S4 on whatever it gives. -/
opaque Config.unknownSine : Nat → Flen → Sample → Sample

end Sys2Proof
end

