-- ==== Sys2Proof/Syntax.lean ====
section
/-! DEFINITION. The seven commands (spec 30_encoding R47, R48). -/

namespace Sys2Proof

/-- A decoded command: one constructor per row of spec/opcode_table.json, operands in the source's argument order. -/
inductive Instr where
  /-- `DL.NEW n, m`: `buffer_size`, `num_channels` (R90) -/
  | dlNew (n m : Index)
  /-- `DL.WRITE ch, x`: `channel`, `sample` (R91) -/
  | dlWrite (ch : Index) (x : Sample)
  /-- `DL.READ ch, d`: `channel`, `delay_samples` (R92) -/
  | dlRead (ch d : Index)
  /-- `DL.READI ch, x`: `channel`, `delay` (R94) -/
  | dlReadi (ch : Index) (x : Sample)
  /-- `LFO.NEW f, sr`: `frequency`, `sample_rate` (R110) -/
  | lfoNew (f sr : Sample)
  /-- `LFO.SETF f`: `frequency` (R111) -/
  | lfoSetf (f : Sample)
  /-- `LFO.NEXT` (R112) -/
  | lfoNext
deriving DecidableEq, Repr

end Sys2Proof
end

