-- ==== Sys2Proof/WellFormed.lean ====
section
/-! DEFINITION. Which commands a block of a given `FLEN` can be sent (spec 30_encoding R46, R49 (d)). -/

namespace Sys2Proof

/-- `x` is an `FLEN`-bit pattern zero-extended to 64 bits: at `FLEN` = 32 its upper half is 0 (R46, kind `F`). -/
abbrev Flen.fits (fl : Flen) (x : Sample) : Prop := fl = .f64 ∨ x.toNat < 2 ^ 32

/-- Every sample operand is a `T` word. Index operands carry their 32 bits in their type, so every value is legal. -/
abbrev Instr.wf (fl : Flen) : Instr → Prop
  | .dlNew _ _ => True
  | .dlWrite _ x => fl.fits x
  | .dlRead _ _ => True
  | .dlReadi _ x => fl.fits x
  | .lfoNew f sr => fl.fits f ∧ fl.fits sr
  | .lfoSetf f => fl.fits f
  | .lfoNext => True

end Sys2Proof
end

