-- ==== Sys2Proof/Decode.lean ====
section
/-! DEFINITION. The decoder and the encoder (spec 30_encoding R45 to R50, R59, R60). -/

namespace Sys2Proof

/-- The kind of an operand slot (R46). -/
inductive SlotKind where
  | index    -- `I`
  | float    -- `F`
  | unused   -- `Z`
deriving DecidableEq, Repr

/-- The two slots. -/
inductive SlotName where
  | a
  | b
deriving DecidableEq, Repr

/-- Why a command word is illegal (R49). -/
inductive Illegal where
  | badOpcode                                      -- (a)
  | badSlot (which : SlotName) (kind : SlotKind)   -- (b), (c), (d), by the slot's kind
deriving DecidableEq, Repr

/-- The seven operations (R48). -/
inductive Operation where
  | dlNew | dlWrite | dlRead | dlReadi | lfoNew | lfoSetf | lfoNext
deriving DecidableEq, Repr

/-- Field `op`, bits 135:128 (R45). -/
def opField (w : CommandWord) : Opcode := w.extractLsb' 128 8

/-- Field `a`, bits 127:64 (R45). -/
def aField (w : CommandWord) : Slot := w.extractLsb' 64 64

/-- Field `b`, bits 63:0 (R45). -/
def bField (w : CommandWord) : Slot := w.extractLsb' 0 64

/-- The value of `op` of an operation (R48). -/
def opcodeOf : Operation → Opcode
  | .dlNew => 0x10#8
  | .dlWrite => 0x11#8
  | .dlRead => 0x12#8
  | .dlReadi => 0x13#8
  | .lfoNew => 0x20#8
  | .lfoSetf => 0x21#8
  | .lfoNext => 0x22#8

/-- The opcode map read from `op` (R48); the other 249 values select nothing. -/
def operationOf (op : Opcode) : Option Operation :=
  if op = 0x10#8 then some .dlNew
  else if op = 0x11#8 then some .dlWrite
  else if op = 0x12#8 then some .dlRead
  else if op = 0x13#8 then some .dlReadi
  else if op = 0x20#8 then some .lfoNew
  else if op = 0x21#8 then some .lfoSetf
  else if op = 0x22#8 then some .lfoNext
  else none

/-- The format of an operation: the kinds of slots `a` and `b` (R47). -/
def formatOf : Operation → SlotKind × SlotKind
  | .dlNew => (.index, .index)
  | .dlWrite => (.index, .float)
  | .dlRead => (.index, .index)
  | .dlReadi => (.index, .float)
  | .lfoNew => (.float, .float)
  | .lfoSetf => (.float, .unused)
  | .lfoNext => (.unused, .unused)

/-- Bits 63:32 of a slot are 0. -/
def upperZero (s : Slot) : Bool := s.extractLsb' 32 32 == 0#32

/-- The must-be-zero checks of R46. -/
def slotLegal (fl : Flen) (k : SlotKind) (s : Slot) : Bool :=
  match k with
  | .index => upperZero s
  | .float => upperZero s || fl == .f64
  | .unused => s == 0#64

/-- An index operand: `s[31:0]` (R46, R60). -/
def indexOf (s : Slot) : Index := s.extractLsb' 0 32

/-- A float operand: `s[FLEN-1:0]` with no conversion (R60), kept as its `zext_64`. -/
def floatOf (fl : Flen) (s : Slot) : Sample :=
  match fl with
  | .f32 => (s.extractLsb' 0 32).setWidth 64
  | .f64 => s

/-- The command an operation and its two legal slots make (R46, R47). -/
def buildInstr (fl : Flen) (o : Operation) (a b : Slot) : Instr :=
  match o with
  | .dlNew => .dlNew (indexOf a) (indexOf b)
  | .dlWrite => .dlWrite (indexOf a) (floatOf fl b)
  | .dlRead => .dlRead (indexOf a) (indexOf b)
  | .dlReadi => .dlReadi (indexOf a) (floatOf fl b)
  | .lfoNew => .lfoNew (floatOf fl a) (floatOf fl b)
  | .lfoSetf => .lfoSetf (floatOf fl a)
  | .lfoNext => .lfoNext

/-- Decoding, in the order of R50: `op`, then each slot by its kind, then the operands. Total on every word. -/
def decode (fl : Flen) (w : CommandWord) : Except Illegal Instr :=
  match operationOf (opField w) with
  | none => .error .badOpcode
  | some o =>
    if slotLegal fl (formatOf o).1 (aField w) then
      if slotLegal fl (formatOf o).2 (bField w) then
        .ok (buildInstr fl o (aField w) (bField w))
      else .error (.badSlot .b (formatOf o).2)
    else .error (.badSlot .a (formatOf o).1)

/-- The operation a command is. -/
def operation : Instr → Operation
  | .dlNew _ _ => .dlNew
  | .dlWrite _ _ => .dlWrite
  | .dlRead _ _ => .dlRead
  | .dlReadi _ _ => .dlReadi
  | .lfoNew _ _ => .lfoNew
  | .lfoSetf _ => .lfoSetf
  | .lfoNext => .lfoNext

/-- Slot `a` of a command (R46, R47). -/
def aSlot : Instr → Slot
  | .dlNew n _ => n.setWidth 64
  | .dlWrite ch _ => ch.setWidth 64
  | .dlRead ch _ => ch.setWidth 64
  | .dlReadi ch _ => ch.setWidth 64
  | .lfoNew f _ => f
  | .lfoSetf f => f
  | .lfoNext => 0#64

/-- Slot `b` of a command (R46, R47). -/
def bSlot : Instr → Slot
  | .dlNew _ m => m.setWidth 64
  | .dlWrite _ x => x
  | .dlRead _ d => d.setWidth 64
  | .dlReadi _ x => x
  | .lfoNew _ sr => sr
  | .lfoSetf _ => 0#64
  | .lfoNext => 0#64

/-- The word of a command (R45 to R48): `{op, a, b}`. -/
def encode (i : Instr) : CommandWord :=
  opcodeOf (operation i) ++ aSlot i ++ bSlot i

/-- What the decoder of a block with the standard parameters reads from the word whose bits are `w`, numbered as
spec/opcode_table.json numbers them (bit 0 the least significant of the 136); bits at and above `nbits` are 0. -/
def decodeTableWord (nbits w : Nat) : Option Instr :=
  match decode Config.standard.flen (BitVec.ofNat 136 (w % 2 ^ nbits)) with
  | .ok i => some i
  | .error _ => none

end Sys2Proof
end

