-- ==== Sys2Proof/Machine/State.lean ====
section
/-! DEFINITION. The state of the block (spec 10_state), its fault causes (60_exceptions R130), and the state after reset. -/

namespace Sys2Proof.Machine

/-- The eight faults of the block (R130). Each is TAKEN: it leads to a next state, the halt state of R132, R133. -/
inductive Cause where
  | illegalCommand
  | notConstructed
  | alreadyConstructed
  | zeroCapacity
  | allocationFailure
  | badSampleRate
  | channelOutOfRange
  | invalidDelay
deriving DecidableEq, Repr

/-- What fault entry records (R133): the cause (`STATUS.FCAUSE`, while `STATUS.HALT` = 1) and `FVAL` (R16). -/
structure FaultRecord where
  cause : Cause
  fval : BitVec 64
deriving DecidableEq, Repr

/-- Sample storage (R20, R30): the words that are not `+0`, by word index, indices strictly rising (`Memory.wf`). A word
that is not listed reads `+0`, which is what `DL.NEW` wrote to it (R90). DESIGN CHOICE (log 8, safe): the form. -/
abbrev Memory := List (Nat × Sample)

/-- The canonical form of a memory: equal memories are equal lists. -/
abbrev Memory.wf (m : Memory) : Prop :=
  m.Pairwise (fun c c' => c.1 < c'.1) ∧ ∀ c ∈ m, c.2 ≠ 0#64

/-- The state of a constructed delay line (R11, R12, R20). -/
structure DelayLine where
  /-- `DLN`, the words of each ring -/
  dln : Index
  /-- `DLM`, the number of channels -/
  dlm : Index
  /-- `WCUR[c]` for the used entries `c < DLM`: the NEXT write position of each channel -/
  wcur : List Index
  /-- `STORE[i]` for the accessible words `i < DLN * DLM` -/
  store : Memory
deriving DecidableEq, Repr

/-- The state of a constructed oscillator (R17, R18, R19): four `T` words. -/
structure Oscillator where
  /-- `FREQ` -/
  freq : Sample
  /-- `SRATE` -/
  srate : Sample
  /-- `PHASE` -/
  phase : Sample
  /-- `INC` -/
  inc : Sample
deriving DecidableEq, Repr

/-- One item of a run (R155, R169): a command word the host presents, a reset, or the host's taking of a response
(R58, R168), which decides whether that response was delivered when a reset comes (R157).
DESIGN CHOICE (log 7, safe): the third kind of item. -/
inductive Item where
  | command (w : CommandWord)
  | reset
  | take
deriving DecidableEq, Repr

/-- Why the MODEL stops. These are not the block's faults (`Cause`): the block halts in a next state. Each is raised only
in a state that no run from reset reaches, where the spec gives the access no meaning. DEDUCED (log 4, safe). -/
inductive Fault where
  /-- Raised by `DL.WRITE`, `DL.READ`, `DL.READI` for a storage index outside `[0, DLN * DLM)`, which R9 leaves undefined.
  Safe: the model stops where the spec says nothing. -/
  | storageOutOfRange
  /-- Raised by `DL.WRITE`, `DL.READ`, `DL.READI` when the cursor file lacks an entry below `DLM`. Safe: the model stops. -/
  | cursorAbsent
  /-- Raised by `DL.READI` if `f2idx` were called outside its domain (R76). Safe: the model stops; R142 rules it out. -/
  | indexUndefined
deriving DecidableEq, Repr

/-- Why the model gives an instruction no meaning. -/
inductive Refusal where
  /-- Raised by an arm of `exec` whose instruction has no meaning yet; no arm does. Safe: the model stops. -/
  | notModelled (mnemonic : String)
deriving DecidableEq, Repr

/-- The machine: the block's parameters and state, and the two ends of its port.
`STATUS` and `FVAL` are stored once, as `dl`, `lfo` and `halt` (DEDUCED, log 2, safe); `Flags` has their 32-bit and 64-bit views.
DESIGN CHOICE (log 3): the two ends of the port stand in the state. -/
structure State where
  /-- The parameters (R6, R25). Not state of the block: no step writes them. -/
  cfg : Config
  /-- The delay line, present exactly when `STATUS.DLV` = 1 (R15, R27) -/
  dl : Option DelayLine
  /-- The oscillator, present exactly when `STATUS.LFV` = 1 (R15, R27) -/
  lfo : Option Oscillator
  /-- `STATUS.HALT`, `STATUS.FCAUSE` and `FVAL`: present exactly when `STATUS.HALT` = 1 (R15, R16) -/
  halt : Option FaultRecord
  /-- What the host has still to present, first to come first (R25, R155). Not state of the block. -/
  pending : List Item
  /-- The responses that wait on the response port, oldest first: produced, not yet taken (R52, R57, R58) -/
  waiting : List ResponseWord
  /-- The responses the host has taken, oldest first (R58, R168). Not state of the block. -/
  delivered : List ResponseWord
  /-- The responses that a reset dropped, oldest first (R157). Not state of the block: no host holds them. -/
  dropped : List ResponseWord
deriving DecidableEq, Repr

/-- A block with parameters `c` right after reset (R22, R156): `STATUS` and `FVAL` 0, every data element absent
(log 2), nothing presented and nothing answered (log 3). -/
def State.resetOf (c : Config) : State :=
  { cfg := c, dl := none, lfo := none, halt := none, pending := [], waiting := [], delivered := [], dropped := [] }

/-- The machine right after reset, with the standard parameters (log 1). -/
def State.reset : State := State.resetOf Config.standard

end Sys2Proof.Machine
end

