-- ==== Sys2Proof/Machine/Numerics.lean ====
section
/-! DEFINITION. The arithmetic of spec 40_numerics on `T` words. A finite `T` value is a whole number of UNITS, the unit
being the spacing of the subnormals, `2^(emin - t)`; so every exact sum, product and quotient is an exact integer or a
quotient of two, and `roundT` narrows once at the end (R67, R77). -/

namespace Sys2Proof.Machine

/-! ### The format (R65) -/

/-- `FLEN` -/
def flenBits : Flen → Nat
  | .f32 => 32
  | .f64 => 64

/-- `t`, the bits of the fraction field -/
def fracBits : Flen → Nat
  | .f32 => 23
  | .f64 => 52

/-- `w`, the bits of the exponent field -/
def expBits : Flen → Nat
  | .f32 => 8
  | .f64 => 11

/-- `emax` = `bias` -/
def emax : Flen → Nat
  | .f32 => 127
  | .f64 => 1023

/-- `t - emin` = `t + emax - 1`: the value 1 is `2^unitExp` units. -/
def unitExp (fl : Flen) : Nat := fracBits fl + emax fl - 1

/-- Units in the value 1. -/
def oneUnits (fl : Flen) : Nat := 2 ^ unitExp fl

/-- The sign field -/
def signBit (fl : Flen) (x : Sample) : Bool := x.getLsbD (flenBits fl - 1)

/-- The biased exponent field `e` -/
def expField (fl : Flen) (x : Sample) : Nat := x.toNat / 2 ^ fracBits fl % 2 ^ expBits fl

/-- The fraction field `f` -/
def fracField (fl : Flen) (x : Sample) : Nat := x.toNat % 2 ^ fracBits fl

/-- The exponent field of infinities and NaNs -/
def expTop (fl : Flen) : Nat := 2 ^ expBits fl - 1

/-! ### The value of a word (R66) -/

/-- `fisnan` (R75) -/
def fisnan (fl : Flen) (x : Sample) : Bool := expField fl x == expTop fl && fracField fl x != 0

/-- The word is an infinity. -/
def fisinf (fl : Flen) (x : Sample) : Bool := expField fl x == expTop fl && fracField fl x == 0

/-- The word is `+0` or `-0`. -/
def fiszero (fl : Flen) (x : Sample) : Bool := expField fl x == 0 && fracField fl x == 0

/-- The word is finite: `e < 2^w - 1`. -/
def isFinite (fl : Flen) (x : Sample) : Bool := decide (expField fl x < expTop fl)

/-- `|val(x)|` in units: `f` for a zero or a subnormal, `(2^t + f) * 2^(e-1)` for a normal number.
For an infinity this is `2^(emax+1)`, just beyond every finite value, which is what `fgt` needs of it. -/
def magUnits (fl : Flen) (x : Sample) : Nat :=
  if expField fl x = 0 then fracField fl x
  else (2 ^ fracBits fl + fracField fl x) * 2 ^ (expField fl x - 1)

/-- `val(x)` in units. -/
def valUnits (fl : Flen) (x : Sample) : Int :=
  if signBit fl x then -(magUnits fl x : Int) else (magUnits fl x : Int)

/-! ### Constants (R69) -/

/-- A word from its sign and its exponent and fraction fields taken as one number. -/
def packWord (fl : Flen) (sign : Bool) (body : Nat) : Sample :=
  BitVec.ofNat 64 ((if sign then 2 ^ (flenBits fl - 1) else 0) + body)

/-- The zero of a sign. -/
def zeroOf (fl : Flen) (sign : Bool) : Sample := packWord fl sign 0

/-- The infinity of a sign. -/
def infOf (fl : Flen) (sign : Bool) : Sample := packWord fl sign (expTop fl * 2 ^ fracBits fl)

/-- `ZERO_T` -/
def zeroT : Sample := 0#64

/-- `ONE_T` -/
def oneT : Flen → Sample
  | .f32 => 0x3F800000#64
  | .f64 => 0x3FF0000000000000#64

/-- `PI_T` -/
def piT : Flen → Sample
  | .f32 => 0x40490FDB#64
  | .f64 => 0x400921FB54442D18#64

/-- `TWO_PI_T` -/
def twoPiT : Flen → Sample
  | .f32 => 0x40C90FDB#64
  | .f64 => 0x401921FB54442D18#64

/-- `CNAN_T` (R68, R69) -/
def cnanT : Flen → Sample
  | .f32 => 0x7FC00000#64
  | .f64 => 0x7FF8000000000000#64

/-! ### Rounding (R67) -/

/-- The integer nearest `num / den`, ties to even. -/
def nearestEven (num den : Nat) : Nat :=
  let q := num / den
  let r := num % den
  if den < 2 * r ∨ (2 * r = den ∧ q % 2 = 1) then q + 1 else q

/-- The exponent and fraction fields of the magnitude `m` units, for an `m` that a word of the format has.
`m / 2^e'` has `t + 1` bits (fewer for a subnormal, where `e'` = 0), and its leading one adds 1 to the exponent field. -/
def encodeMag (fl : Flen) (m : Nat) : Nat :=
  let e' := Nat.log2 m - fracBits fl
  e' * 2 ^ fracBits fl + m / 2 ^ e'

/-- `round_T` of the real number `num / den` units with sign `sign`: nearest, ties to even, as if the exponent range were
unbounded above, then an infinity from `2^(emax+1)` on; a result that rounds to zero keeps the sign. -/
def roundT (fl : Flen) (sign : Bool) (num den : Nat) : Sample :=
  let spacing := 2 ^ (Nat.log2 (num / den) - fracBits fl)
  let m := nearestEven num (den * spacing) * spacing
  if 2 ^ (emax fl + 1) * oneUnits fl ≤ m then infOf fl sign
  else packWord fl sign (encodeMag fl m)

/-! ### Operations -/

/-- `neg` (R71): the sign bit inverted. -/
def fneg (fl : Flen) (x : Sample) : Sample := x ^^^ BitVec.ofNat 64 (2 ^ (flenBits fl - 1))

/-- `fadd` (R70), its cases in the order of the rule. -/
def fadd (fl : Flen) (a b : Sample) : Sample :=
  if fisnan fl a || fisnan fl b then cnanT fl
  else if fisinf fl a && fisinf fl b && signBit fl a != signBit fl b then cnanT fl
  else if fisinf fl a then a
  else if fisinf fl b then b
  else if fiszero fl a && fiszero fl b then zeroOf fl (signBit fl a && signBit fl b)
  else
    let z := valUnits fl a + valUnits fl b
    if z = 0 then zeroOf fl false else roundT fl (decide (z < 0)) z.natAbs 1

/-- `fsub` (R71) -/
def fsub (fl : Flen) (a b : Sample) : Sample := fadd fl a (fneg fl b)

/-- `fmul` (R72): the product of two numbers of units is `2^unitExp` times too small a unit. -/
def fmul (fl : Flen) (a b : Sample) : Sample :=
  let sg := signBit fl a != signBit fl b
  if fisnan fl a || fisnan fl b then cnanT fl
  else if (fisinf fl a && fiszero fl b) || (fiszero fl a && fisinf fl b) then cnanT fl
  else if fisinf fl a || fisinf fl b then infOf fl sg
  else if fiszero fl a || fiszero fl b then zeroOf fl sg
  else roundT fl sg (magUnits fl a * magUnits fl b) (oneUnits fl)

/-- `fdiv` (R73) -/
def fdiv (fl : Flen) (a b : Sample) : Sample :=
  let sg := signBit fl a != signBit fl b
  if fisnan fl a || fisnan fl b then cnanT fl
  else if (fisinf fl a && fisinf fl b) || (fiszero fl a && fiszero fl b) then cnanT fl
  else if fisinf fl a then infOf fl sg
  else if fisinf fl b then zeroOf fl sg
  else if fiszero fl b then infOf fl sg
  else if fiszero fl a then zeroOf fl sg
  else roundT fl sg (magUnits fl a * oneUnits fl) (magUnits fl b)

/-- The largest integer not greater than `val(x)`, for a finite `x`. -/
def floorInt (fl : Flen) (x : Sample) : Int := valUnits fl x / (oneUnits fl : Int)

/-- `ffloor` (R74) -/
def ffloor (fl : Flen) (x : Sample) : Sample :=
  if fisnan fl x then cnanT fl
  else if fisinf fl x || fiszero fl x then x
  else
    let n := floorInt fl x
    if n = 0 then zeroT else packWord fl (decide (n < 0)) (encodeMag fl (n.natAbs * oneUnits fl))

/-- `fgt` (R75): false on NaN, `-0` equal to `+0`, infinities beyond every finite value. -/
def fgt (fl : Flen) (a b : Sample) : Bool :=
  !fisnan fl a && !fisnan fl b && decide (valUnits fl b < valUnits fl a)

/-- `flt` (R75) -/
def flt (fl : Flen) (a b : Sample) : Bool := fgt fl b a

/-- `f2idx` (R76): defined only for a finite integral value in `[0, 2^32 - 1]`. -/
def f2idx (fl : Flen) (x : Sample) : Option Nat :=
  if isFinite fl x && valUnits fl x % (oneUnits fl : Int) == 0
      && decide (0 ≤ floorInt fl x) && decide (floorInt fl x ≤ 2 ^ 32 - 1) then
    some (floorInt fl x).toNat
  else none

end Sys2Proof.Machine
end

