-- ==== Sys2Proof/Machine/Ops.lean ====
section
/-! DEFINITION. The named operations over the port, the fault state, storage and the registers (spec 00_scope R9,
20_memory R30 to R36, 60_exceptions R130 to R144, 70_reset R156). -/

namespace Sys2Proof.Machine

/-- What a command or an item of a run answers. -/
abbrev Result := Host.Outcome State Fault Refusal

/-! ### Responses (R52 to R54) -/

/-- Status `OK` -/
def statusOk : BitVec 8 := 0x00#8

/-- Status `Halted` -/
def statusHalted : BitVec 8 := 0xFF#8

/-- A response word `{status, value}` (R52). -/
def responseWord (status : BitVec 8) (value : BitVec 64) : ResponseWord := status ++ value

/-- `respond(status, value)` (R9): one response on the port, behind those of the earlier commands (R52). -/
def respond (status : BitVec 8) (value : BitVec 64) (s : State) : State :=
  { s with waiting := s.waiting ++ [responseWord status value] }

/-- The host takes the response that waits longest, if one does (R52, R58). -/
def takeResponse (s : State) : State :=
  match s.waiting with
  | [] => s
  | r :: rest => { s with waiting := rest, delivered := s.delivered ++ [r] }

/-- The command completes: status `OK` and the value it returns, 0 for a command that returns none (R54). -/
def complete (value : BitVec 64) (s : State) : Result := .next (respond statusOk value s)

/-! ### Taking a fault (R130 to R134) and the halt state (R132, R144) -/

/-- The cause code (R130), the value of `STATUS.FCAUSE` and of the response's status. -/
def causeCode : Cause → BitVec 8
  | .illegalCommand => 0x01#8
  | .notConstructed => 0x02#8
  | .alreadyConstructed => 0x03#8
  | .zeroCapacity => 0x04#8
  | .allocationFailure => 0x05#8
  | .badSampleRate => 0x06#8
  | .channelOutOfRange => 0x07#8
  | .invalidDelay => 0x08#8

/-- The state after fault entry (R133): `FCAUSE`, `HALT` and `FVAL` written, the response given, nothing else changed
(R134). -/
def faulted (c : Cause) (info : BitVec 64) (s : State) : State :=
  respond (causeCode c) info { s with halt := some ⟨c, info⟩ }

/-- Fault entry, `raise <Fault>(info)` (R9, R133): the command takes the fault. -/
def raise (c : Cause) (info : BitVec 64) (s : State) : Result := .next (faulted c info s)

/-- A command that reaches a halted block is discarded: response `Halted`, 0, no state changed (R144). -/
def discardCommand (s : State) : Result := .next (respond statusHalted 0#64 s)

/-- The halt check every command makes first (R143, R144). -/
def unlessHalted (s : State) (k : Result) : Result := if s.halt.isSome then discardCommand s else k

/-- The way out of the halt state: reset (R145, R156). `STATUS` and `FVAL` become 0, every data element is absent.
The responses that wait on the port are dropped (R157, log 7); what the host has still to present, and the responses it has
taken, are not the block's and stand (log 3). -/
def resetBlock (s : State) : State :=
  { s with dl := none, lfo := none, halt := none, waiting := [], dropped := s.dropped ++ s.waiting }

/-! ### Sample storage (R9, R20, R30, R31, R35) -/

/-- The word at an index: the listed one, else `+0`. -/
def memRead : Memory → Nat → Sample
  | [], _ => 0#64
  | (k, v) :: m, i => if i = k then v else memRead m i

/-- `m` with a word at an index above which all of `m` lies: `+0` is not listed. -/
def memCons (i : Nat) (v : Sample) (m : Memory) : Memory := if v = 0#64 then m else (i, v) :: m

/-- Writes one word, keeping the canonical form. -/
def memWrite : Memory → Nat → Sample → Memory
  | [], i, v => memCons i v []
  | (k, w) :: m, i, v =>
    if i < k then memCons i v ((k, w) :: m)
    else if i = k then memCons i v m
    else (k, w) :: memWrite m i v

/-- The number of accessible words, `DLN * DLM` (R20). -/
def storeWords (d : DelayLine) : Nat := d.dln.toNat * d.dlm.toNat

/-- `MemRead(addr, 1)` (R9), defined for `0 <= addr < DLN * DLM`. -/
def loadWord (d : DelayLine) (addr : Int) : Option Sample :=
  if 0 ≤ addr ∧ addr < (storeWords d : Int) then some (memRead d.store addr.toNat) else none

/-- `MemWrite(addr, 1, v)` (R9), defined for `0 <= addr < DLN * DLM`. -/
def storeWord (d : DelayLine) (addr : Int) (v : Sample) : Option DelayLine :=
  if 0 ≤ addr ∧ addr < (storeWords d : Int) then some { d with store := memWrite d.store addr.toNat v } else none

/-- What `DL.NEW` makes: `n * m` words `+0`, `m` cursors 0 (R90). -/
def freshDelayLine (n m : Index) : DelayLine :=
  { dln := n, dlm := m, wcur := List.replicate m.toNat 0#32, store := [] }

/-- `WCUR[c] <- v` -/
def setCursor (d : DelayLine) (c : Index) (v : Index) : DelayLine := { d with wcur := d.wcur.set c.toNat v }

/-! ### The checks the commands share, in the order of R143 -/

/-- Runs `k` on the delay line, or raises `NotConstructed` with the command's opcode (R136). -/
def withDelayLine (op : Opcode) (s : State) (k : DelayLine → Result) : Result :=
  match s.dl with
  | none => raise .notConstructed (op.setWidth 64) s
  | some d => k d

/-- Runs `k` on the oscillator, or raises `NotConstructed` with the command's opcode (R136). -/
def withOscillator (op : Opcode) (s : State) (k : Oscillator → Result) : Result :=
  match s.lfo with
  | none => raise .notConstructed (op.setWidth 64) s
  | some o => k o

/-- Runs `k` on `WCUR[ch]`, or raises `ChannelOutOfRange` (R141). -/
def withChannel (ch : Index) (d : DelayLine) (s : State) (k : Index → Result) : Result :=
  if ch.toNat < d.dlm.toNat then
    match d.wcur[ch.toNat]? with
    | none => .fault .cursorAbsent
    | some cur => k cur
  else raise .channelOutOfRange (ch.setWidth 64) s

/-- Runs `k` on a word read from storage. -/
def withWord (v : Option Sample) (k : Sample → Result) : Result :=
  match v with
  | none => .fault .storageOutOfRange
  | some x => k x

/-- Runs `k` on the delay line after a storage write. -/
def withStored (v : Option DelayLine) (k : DelayLine → Result) : Result :=
  match v with
  | none => .fault .storageOutOfRange
  | some d => k d

/-- Runs `k` on the index a conversion gave (R76). -/
def withIndex (v : Option Nat) (k : Nat → Result) : Result :=
  match v with
  | none => .fault .indexUndefined
  | some i => k i

end Sys2Proof.Machine
end

