-- ==== Sys2Proof/Machine/Operands.lean ====
section
/-! DEFINITION. How the commands use their operands: the storage address of a channel and a delay (spec 20_memory R32,
41_delay_line R91, R93, 40_numerics R81) and the test of a fractional delay (60_exceptions R142). -/

namespace Sys2Proof.Machine

/-- The only addressing mode (R31, R32): slot `k` of channel `ch`. -/
def slotAddress (d : DelayLine) (ch : Index) (k : Int) : Int := (ch.toNat * d.dln.toNat : Nat) + k

/-- Steps 1 and 2 of R93: the slot written `delay` writes ago, for the next write position `cur` and capacity `n`. The
reduction is by the per-channel capacity and for every delay (90_conflicts C1, C2). -/
def delayedSlot (n cur delay : Nat) : Int :=
  let k : Int := (cur : Int) - (delay % n : Nat) - 1
  if k < 0 then k + n else k

/-- `dl_read(ch, delay)` (R93), for the channel's cursor `cur`. -/
def dlRead (d : DelayLine) (ch cur : Index) (delay : Nat) : Option Sample :=
  loadWord d (slotAddress d ch (delayedSlot d.dln.toNat cur.toNat delay))

/-- The cursor after a write, `(cur + 1) mod DLN` (R81, R91). -/
def nextCursor (d : DelayLine) (cur : Index) : Index := BitVec.ofNat 32 ((cur.toNat + 1) % d.dln.toNat)

/-- The least value in units that `DL.READI` refuses: 2^32 - 1 (R142). -/
def delayLimit (fl : Flen) : Int := (2 ^ 32 - 1) * (oneUnits fl : Int)

/-- The test of R94 and R142, its four conditions in the order of R94: NaN, negative, `+inf`, floor too large. -/
def invalidDelay (fl : Flen) (x : Sample) : Bool :=
  fisnan fl x || flt fl x zeroT || (fisinf fl x && !signBit fl x)
    || decide (delayLimit fl ≤ valUnits fl (ffloor fl x))

/-- The linear interpolation of R94, three roundings (R77). -/
def interpolate (fl : Flen) (y1 y2 fr : Sample) : Sample :=
  fadd fl y1 (fmul fl fr (fsub fl y2 y1))

end Sys2Proof.Machine
end

