-- ==== Sys2Proof/Machine/DelayLine.lean ====
section
/-! DEFINITION. The delay-line commands (spec 41_delay_line). -/

namespace Sys2Proof.Machine

/-- `DL.NEW n, m` (R90). The product `n * m` is exact (R82); `m` = 0 is accepted. -/
def execDlNew (n m : Index) (s : State) : Result :=
  unlessHalted s (
    if s.dl.isSome then raise .alreadyConstructed 0x10#64 s
    else if n = 0#32 then raise .zeroCapacity 0#64 s
    else if s.cfg.maxch < m.toNat ∨ s.cfg.depth < n.toNat * m.toNat then raise .allocationFailure (m ++ n) s
    else complete 0#64 { s with dl := some (freshDelayLine n m) })

/-- `DL.WRITE ch, x` (R91): store at the cursor, then advance. -/
def execDlWrite (ch : Index) (x : Sample) (s : State) : Result :=
  unlessHalted s (withDelayLine 0x11#8 s fun d => withChannel ch d s fun cur =>
    withStored (storeWord d (slotAddress d ch cur.toNat) x) fun d' =>
      complete 0#64 { s with dl := some (setCursor d' ch (nextCursor d cur)) })

/-- `DL.READ ch, d` (R92): the stored bits, every delay accepted. -/
def execDlRead (ch delay : Index) (s : State) : Result :=
  unlessHalted s (withDelayLine 0x12#8 s fun d => withChannel ch d s fun cur =>
    withWord (dlRead d ch cur delay.toNat) fun y => complete y s)

/-- `DL.READI ch, x` (R94): linear interpolation between the delays `floor(x)` and `floor(x) + 1`. -/
def execDlReadi (ch : Index) (x : Sample) (s : State) : Result :=
  unlessHalted s (withDelayLine 0x13#8 s fun d => withChannel ch d s fun cur =>
    if invalidDelay s.cfg.flen x then raise .invalidDelay x s
    else withIndex (f2idx s.cfg.flen (ffloor s.cfg.flen x)) fun i =>
      withWord (dlRead d ch cur i) fun y1 => withWord (dlRead d ch cur (i + 1)) fun y2 =>
        complete (interpolate s.cfg.flen y1 y2 (fsub s.cfg.flen x (ffloor s.cfg.flen x))) s)

end Sys2Proof.Machine
end

