-- ==== Sys2Proof/Machine/Sine.lean ====
section
/-! DEFINITION. The sine of spec 40_numerics: `fsin` with properties S1 to S4 (R84), and the reference instance, the
correctly rounded sine (R85), computed with integers: an enclosure of the real sine at some precision, rounded at both
ends; where the two ends round alike, that is the correctly rounded value, else the precision is doubled. -/

namespace Sys2Proof.Machine

/-! ### The reference sine (R85) -/

/-- `arctan (1/q)` times `2^bits`, by the Gregory series nested from its term number `terms` down to term `k = terms - i`. -/
def arctanNest (q bits terms : Nat) : Nat → Nat
  | 0 => 0
  | i + 1 =>
    let tail := arctanNest q bits terms i
    2 ^ bits / (2 * (terms - i) + 1) - tail / (q * q)

/-- `arctan (1/q)` times `2^bits`, for `q >= 5`: each term adds more than four bits. -/
def arctanInv (q bits : Nat) : Nat := arctanNest q bits (bits / 4 + 2) (bits / 4 + 3) / q

/-- `pi * 2^bits` to within one, by Machin's formula with 32 guard bits. -/
def piFixed (bits : Nat) : Nat :=
  (16 * arctanInv 5 (bits + 32) - 4 * arctanInv 239 (bits + 32)) / 2 ^ 32

/-- One nested Taylor series in `r2 = r^2 / 2^bits`: `1 - r2/(d 1) * (1 - r2/(d 2) * ...)` times `2^bits`, from term
`terms` down, with `d k` the divisor of step `k`. -/
def taylorNest (d : Nat → Nat) (r2 bits terms : Nat) : Nat → Nat
  | 0 => 2 ^ bits
  | i + 1 => 2 ^ bits - r2 * taylorNest d r2 bits terms i / (2 ^ bits * d (terms - i))

/-- `sin (r / 2^bits) * 2^bits` for `0 <= r / 2^bits <= pi/2`. -/
def sinFixed (bits r : Nat) : Nat :=
  r * taylorNest (fun k => 2 * k * (2 * k + 1)) (r * r / 2 ^ bits) bits (bits / 4) (bits / 4) / 2 ^ bits

/-- `cos (r / 2^bits) * 2^bits` for `0 <= r / 2^bits <= pi/2`. -/
def cosFixed (bits r : Nat) : Nat :=
  taylorNest (fun k => (2 * k - 1) * (2 * k)) (r * r / 2 ^ bits) bits (bits / 4) (bits / 4)

/-- For a magnitude of `m` units: whether its sine is negative, and `|sin| * 2^bits` with an error far below `2^16`.
The argument is taken to `bits + extra` bits, `extra` the bits of its integer part, and reduced by quarter turns. -/
def sinMag (fl : Flen) (m bits : Nat) : Bool × Nat :=
  let extra := Nat.log2 m + 1 - unitExp fl
  let scale := bits + extra
  let x := m * 2 ^ scale / oneUnits fl
  let p := piFixed scale
  let quarter := 2 * x / p
  let r := (2 * x - quarter * p) / 2 ^ (extra + 1)
  match quarter % 4 with
  | 0 => (false, sinFixed bits r)
  | 1 => (false, cosFixed bits r)
  | 2 => (true, sinFixed bits r)
  | _ => (true, cosFixed bits r)

/-- Doubles the precision until both ends of the enclosure round alike. The sine of a non-zero `T` value is never a tie and
never exactly a `T` value, so some precision suffices; UNVERIFIED (log 6): that the eight precisions tried do. -/
def sinSearch (fl : Flen) (sign : Bool) (m : Nat) : Nat → Nat → Sample
  | 0, _ => zeroT
  | fuel + 1, bits =>
    let (neg, v) := sinMag fl m bits
    let lo := roundT fl (sign != neg) ((v - 2 ^ 16) * oneUnits fl) (2 ^ bits)
    let hi := roundT fl (sign != neg) ((v + 2 ^ 16) * oneUnits fl) (2 ^ bits)
    if 2 ^ 16 < v ∧ lo = hi then lo else sinSearch fl sign m fuel (2 * bits)

/-- `round_T (sin (val x))` for a finite non-zero `x` (R85). Below `2^-ceil(p/2)` the sine is `x` less at most `x^3/6`,
which is under half a spacing, so it rounds to `x`. -/
def referenceSine (fl : Flen) (x : Sample) : Sample :=
  let m := magUnits fl x
  if m < 2 ^ (unitExp fl - (fracBits fl + 2) / 2) then x
  else sinSearch fl (signBit fl x) m 8 192

/-! ### `fsin` (R84) -/

/-- The low `FLEN` bits of a word: every 64-bit value becomes a `T` word. -/
def narrowT (fl : Flen) (x : Sample) : Sample := BitVec.ofNat 64 (x.toNat % 2 ^ flenBits fl)

/-- S2 imposed on a raw value: a finite word in `[-1, 1]` is kept, anything else becomes `+0`. Every function with S1 to S4
is its own image, so no sine is left out. DESIGN CHOICE (log 5, safe): the +0. -/
def boundSine (fl : Flen) (r : Sample) : Sample :=
  let y := narrowT fl r
  if isFinite fl y && decide (magUnits fl y ≤ oneUnits fl) then y else zeroT

/-- The values of the block's sine at finite non-zero operands. -/
def rawSine (sine : Sine) (fl : Flen) (x : Sample) : Sample :=
  match sine with
  | .reference => referenceSine fl x
  | .unknown k => Config.unknownSine k fl x

/-- `fsin` (R84): S3 for NaN and infinity, S4 for the zeros, S2 for every other operand; S1 since it is a function. -/
def fsin (sine : Sine) (fl : Flen) (x : Sample) : Sample :=
  if !isFinite fl x then cnanT fl
  else if fiszero fl x then x
  else boundSine fl (rawSine sine fl x)

end Sys2Proof.Machine
end

