-- ==== Sys2Proof/Machine/Lfo.lean ====
section
/-! DEFINITION. The oscillator commands (spec 42_lfo). -/

namespace Sys2Proof.Machine

/-- The phase wrap: R113 (`RESET`: +0 when the phase is greater than 1) or R114 (`FRAC`: the phase less its floor). -/
def wrapPhase (mode : PhaseWrap) (fl : Flen) (p : Sample) : Sample :=
  match mode with
  | .reset => if fgt fl p (oneT fl) then zeroT else p
  | .frac => fsub fl p (ffloor fl p)

/-- The angle of a phase (R115): one rounded product, one rounded difference. -/
def phaseAngle (fl : Flen) (p : Sample) : Sample := fsub fl (fmul fl p (twoPiT fl)) (piT fl)

/-- The phase that `LFO.NEXT` moves to (R112). -/
def nextPhase (c : Config) (o : Oscillator) : Sample := wrapPhase c.phaseWrap c.flen (fadd c.flen o.phase o.inc)

/-- `LFO.NEW f, sr` (R110). -/
def execLfoNew (f sr : Sample) (s : State) : Result :=
  unlessHalted s (
    if s.lfo.isSome then raise .alreadyConstructed 0x20#64 s
    else if !fgt s.cfg.flen sr zeroT then raise .badSampleRate sr s
    else complete 0#64
      { s with lfo := some { freq := f, srate := sr, phase := zeroT, inc := fdiv s.cfg.flen f sr } })

/-- `LFO.SETF f` (R111): the phase is not touched. -/
def execLfoSetf (f : Sample) (s : State) : Result :=
  unlessHalted s (withOscillator 0x21#8 s fun o =>
    complete 0#64 { s with lfo := some { o with freq := f, inc := fdiv s.cfg.flen f o.srate } })

/-- `LFO.NEXT` (R112): advance, wrap, and the sine at the new phase. -/
def execLfoNext (s : State) : Result :=
  unlessHalted s (withOscillator 0x22#8 s fun o =>
    complete (fsin s.cfg.sine s.cfg.flen (phaseAngle s.cfg.flen (nextPhase s.cfg o)))
      { s with lfo := some { o with phase := nextPhase s.cfg o } })

end Sys2Proof.Machine
end

