-- ==== Sys2Proof/Machine/Dispatch.lean ====
section
/-! DEFINITION. One arm per command (spec 30_encoding R48). -/

namespace Sys2Proof.Machine

/-- What a decoded command does. -/
def exec (i : Instr) (s : State) : Host.Outcome State Fault Refusal :=
  match i with
  | .dlNew n m => Sys2Proof.Machine.execDlNew n m s
  | .dlWrite ch x => Sys2Proof.Machine.execDlWrite ch x s
  | .dlRead ch d => Sys2Proof.Machine.execDlRead ch d s
  | .dlReadi ch x => Sys2Proof.Machine.execDlReadi ch x s
  | .lfoNew f sr => Sys2Proof.Machine.execLfoNew f sr s
  | .lfoSetf f => Sys2Proof.Machine.execLfoSetf f s
  | .lfoNext => Sys2Proof.Machine.execLfoNext s

end Sys2Proof.Machine
end

