-- ==== Sys2Proof/Machine/Port.lean ====
section
/-! DEFINITION. What the block does with the items the host presents (spec 20_memory R36, 30_encoding R58, 60_exceptions
R135, R143, R144, R154, 70_reset R155, R156). -/

namespace Sys2Proof.Machine

/-- One accepted command word: discarded undecoded while halted, else `IllegalCommand`, else executed (R143). -/
def acceptWord (w : CommandWord) (s : State) : Result :=
  if s.halt.isSome then discardCommand s
  else
    match decode s.cfg.flen w with
    | .error _ => raise .illegalCommand ((opField w).setWidth 64) s
    | .ok i => exec i s

/-- The next item of the run. With none, the block is idle and holds its state (R154). -/
def takeItem (s : State) : Result :=
  match s.pending with
  | [] => .next s
  | .reset :: rest => .next (resetBlock { s with pending := rest })
  | .take :: rest => .next (takeResponse { s with pending := rest })
  | .command w :: rest => acceptWord w { s with pending := rest }

/-- The host presents this word next, before what it was to present. -/
def presentWord (w : CommandWord) (s : State) : State := { s with pending := .command w :: s.pending }

end Sys2Proof.Machine
end

