-- ==== Sys2Proof/Machine/Step.lean ====
section
/-! DEFINITION. One step of the block: one item of the run (spec 00_scope R10, 70_reset R155). -/

namespace Sys2Proof.Machine

/-- One step. -/
def step (s : State) : Host.Outcome State Fault Refusal := takeItem s

/-- `s` with the command word of bits `w` (numbered as spec/opcode_table.json numbers them, those at and above `nbits` 0)
presented by the host, so that the next step takes it. The block fetches nothing (10_state R13): see log 3. -/
def State.withFetchWord (s : State) (nbits w : Nat) : State := presentWord (BitVec.ofNat 136 (w % 2 ^ nbits)) s

end Sys2Proof.Machine
end

