-- ==== Sys2Proof/Machine/Assembler.lean ====
section
/-! DEFINITION. The textual form of commands (spec 30_encoding R55, R56), as lists of characters.
DESIGN CHOICE (log 9): blank lines, separators, the sign `+`, the case of digits, and that a line which is no command spoils its text. -/

namespace Sys2Proof.Machine

/-! ### Characters and splitting -/

/-- A character that separates words on a line. -/
def isBlankChar (c : Char) : Bool := c == ' ' || c == '\t' || c == '\r'

/-- The pieces of a list between separators, one more than there are separators. -/
def splitChars (sep : Char) : List Char → List (List Char)
  | [] => [[]]
  | c :: cs =>
    if c == sep then [] :: splitChars sep cs
    else
      match splitChars sep cs with
      | [] => [[c]]
      | p :: ps => (c :: p) :: ps

/-- Without blanks at either end. -/
def trimChars (cs : List Char) : List Char :=
  ((cs.dropWhile isBlankChar).reverse.dropWhile isBlankChar).reverse

/-- Mnemonics are case-insensitive (R55): capitals become small letters. -/
def lowerChar (c : Char) : Char :=
  if 65 ≤ c.toNat ∧ c.toNat ≤ 90 then Char.ofNat (c.toNat + 32) else c

/-! ### Numbers -/

/-- The value of a decimal digit. -/
def decDigit (c : Char) : Option Nat :=
  if 48 ≤ c.toNat ∧ c.toNat ≤ 57 then some (c.toNat - 48) else none

/-- The value of a hexadecimal digit. -/
def hexDigit (c : Char) : Option Nat :=
  if 97 ≤ c.toNat ∧ c.toNat ≤ 102 then some (c.toNat - 87)
  else if 65 ≤ c.toNat ∧ c.toNat ≤ 70 then some (c.toNat - 55)
  else decDigit c

/-- The number that digits in a base continue from `acc`; every character must be a digit. -/
def digitsFrom (digit : Char → Option Nat) (base : Nat) : Nat → List Char → Option Nat
  | acc, [] => some acc
  | acc, c :: cs =>
    match digit c with
    | none => none
    | some v => digitsFrom digit base (acc * base + v) cs

/-- One or more digits. -/
def number (digit : Char → Option Nat) (base : Nat) (cs : List Char) : Option Nat :=
  match cs with
  | [] => none
  | _ :: _ => digitsFrom digit base 0 cs

/-- An index operand: a decimal integer, or `0x` and hexadecimal digits, in 0 to 2^32 - 1 (R55). -/
def readIndex (cs : List Char) : Option Index :=
  let v :=
    match cs with
    | '0' :: 'x' :: hs => number hexDigit 16 hs
    | _ => number decDigit 10 cs
  match v with
  | none => none
  | some n => if n < 2 ^ 32 then some (BitVec.ofNat 32 n) else none

/-- An optional sign: whether it is a minus, and what follows. -/
def readSign (cs : List Char) : Bool × List Char :=
  match cs with
  | '-' :: r => (true, r)
  | '+' :: r => (false, r)
  | _ => (false, cs)

/-- The exponent of a literal: nothing, or `e` with an optional sign and digits. -/
def readExponent (cs : List Char) : Option Int :=
  match cs with
  | [] => some 0
  | 'e' :: r =>
    let (neg, ds) := readSign r
    match number decDigit 10 ds with
    | none => none
    | some n => some (if neg then -(n : Int) else n)
  | _ => none

/-- The fraction digits of a literal: nothing, or `.` and digits. -/
def readFraction (cs : List Char) : Option (List Char) :=
  match cs with
  | [] => some []
  | '.' :: ds => if ds.isEmpty then none else some ds
  | _ => none

/-- The `T` value of `(-1)^sign * digits * 10^power`, round to nearest, ties to even (R55, R67); a literal of value 0 is the
zero of its sign (DEDUCED from V22's `-0.0`, log 9). -/
def decimalT (fl : Flen) (sign : Bool) (digits : Nat) (power : Int) : Sample :=
  if digits = 0 then zeroOf fl sign
  else roundT fl sign (digits * 10 ^ power.toNat * oneUnits fl) (10 ^ (-power).toNat)

/-- A decimal literal: optional sign, digits, optional `.` and digits, optional exponent (R55). -/
def readDecimal (fl : Flen) (cs : List Char) : Option Sample :=
  let (sign, body) := readSign cs
  let whole := body.takeWhile fun c => (decDigit c).isSome
  let rest := body.dropWhile fun c => (decDigit c).isSome
  let fracText := rest.takeWhile fun c => c != 'e'
  match readFraction fracText, readExponent (rest.drop fracText.length) with
  | some fr, some ex =>
    if whole.isEmpty then none
    else
      match number decDigit 10 (whole ++ fr) with
      | none => none
      | some n => some (decimalT fl sign n (ex - fr.length))
  | _, _ => none

/-- A float operand: `inf`, `-inf`, `nan`, `bits:0x` and exactly `FLEN`/4 hexadecimal digits, or a decimal literal (R55). -/
def readFloat (fl : Flen) (cs : List Char) : Option Sample :=
  match cs with
  | ['i', 'n', 'f'] => some (infOf fl false)
  | ['-', 'i', 'n', 'f'] => some (infOf fl true)
  | ['n', 'a', 'n'] => some (cnanT fl)
  | 'b' :: 'i' :: 't' :: 's' :: ':' :: '0' :: 'x' :: hs =>
    if hs.length = flenBits fl / 4 then (number hexDigit 16 hs).map (BitVec.ofNat 64) else none
  | _ => readDecimal fl cs

/-! ### Commands -/

/-- The command of a mnemonic and its operands (R55's table). -/
def readCommand (fl : Flen) (mnemonic : List Char) (operands : List (List Char)) : Option Instr :=
  match mnemonic, operands with
  | ['d', 'l', '.', 'n', 'e', 'w'], [n, m] =>
    match readIndex n, readIndex m with
    | some n, some m => some (.dlNew n m)
    | _, _ => none
  | ['d', 'l', '.', 'w', 'r', 'i', 't', 'e'], [ch, x] =>
    match readIndex ch, readFloat fl x with
    | some ch, some x => some (.dlWrite ch x)
    | _, _ => none
  | ['d', 'l', '.', 'r', 'e', 'a', 'd'], [ch, d] =>
    match readIndex ch, readIndex d with
    | some ch, some d => some (.dlRead ch d)
    | _, _ => none
  | ['d', 'l', '.', 'r', 'e', 'a', 'd', 'i'], [ch, x] =>
    match readIndex ch, readFloat fl x with
    | some ch, some x => some (.dlReadi ch x)
    | _, _ => none
  | ['l', 'f', 'o', '.', 'n', 'e', 'w'], [f, sr] =>
    match readFloat fl f, readFloat fl sr with
    | some f, some sr => some (.lfoNew f sr)
    | _, _ => none
  | ['l', 'f', 'o', '.', 's', 'e', 't', 'f'], [f] => (readFloat fl f).map .lfoSetf
  | ['l', 'f', 'o', '.', 'n', 'e', 'x', 't'], [] => some .lfoNext
  | _, _ => none

/-- A line without its comment, which `;` starts (R55), and without blanks at its ends. -/
def lineText (line : List Char) : List Char := trimChars (line.takeWhile fun c => c != ';')

/-- The operands of a command: none, or the pieces between commas. -/
def operandTexts (cs : List Char) : List (List Char) :=
  if cs.isEmpty then [] else (splitChars ',' cs).map trimChars

/-- One line with one command (R55). -/
def assembleLine (fl : Flen) (line : List Char) : Option Instr :=
  let text := lineText line
  let mnemonic := text.takeWhile fun c => !isBlankChar c
  let rest := trimChars (text.dropWhile fun c => !isBlankChar c)
  readCommand fl (mnemonic.map lowerChar) (operandTexts rest)

/-- The words of a text, one command a line; a line with nothing but blanks and a comment gives no word. `none` when some
line is no command. The unused upper bits of every slot are 0, since `encode` leaves them so (R55). -/
def assemble (fl : Flen) (text : List Char) : Option (List CommandWord) :=
  ((splitChars '\n' text).filter fun l => !(lineText l).isEmpty).mapM fun l => (assembleLine fl l).map encode

end Sys2Proof.Machine
end

