-- ==== Sys2Proof/Machine/Flags.lean ====
section
/-! DEFINITION. The block has no arithmetic flags (spec 10_state R14); the only flag-like state is `STATUS`, which with
`FVAL` is driven on the pins (R15, R16, 30_encoding R57). Both are views of the state, where each field is stored once. -/

namespace Sys2Proof.Machine

/-- `STATUS.DLV` -/
def dlvBit (s : State) : Bool := s.dl.isSome

/-- `STATUS.LFV` -/
def lfvBit (s : State) : Bool := s.lfo.isSome

/-- `STATUS.HALT` -/
def haltBit (s : State) : Bool := s.halt.isSome

/-- `STATUS.FCAUSE`: 0x00 while `HALT` = 0 -/
def fcauseField (s : State) : BitVec 8 :=
  match s.halt with
  | none => 0x00#8
  | some f => causeCode f.cause

/-- The `STATUS` register (R15): `FCAUSE` in 15:8, `HALT` in 2, `LFV` in 1, `DLV` in 0, the reserved bits 0. -/
def statusReg (s : State) : BitVec 32 :=
  0#16 ++ fcauseField s ++ 0#5 ++ BitVec.ofBool (haltBit s) ++ BitVec.ofBool (lfvBit s) ++ BitVec.ofBool (dlvBit s)

/-- The `FVAL` register (R16): 0 while `HALT` = 0 -/
def fvalReg (s : State) : BitVec 64 :=
  match s.halt with
  | none => 0#64
  | some f => f.fval

end Sys2Proof.Machine
end

