-- ==== Sys2Proof/Safety.lean ====
section
/-! DEFINITION. What claims about the block are stated in: its invariants (spec 10_state R23, R24), a run that ended well
(70_reset R169), and the meaning of words and rounding as numbers (40_numerics R66, R67). -/

namespace Sys2Proof.Machine

/-! ### Invariants -/

/-- R23 (a), (b), (c) for a constructed delay line, with the form of its two register files. R23 (d) is about the indices
the commands form. -/
abbrev RingInv (c : Config) (d : DelayLine) : Prop :=
  1 ≤ d.dln.toNat ∧ d.dlm.toNat ≤ c.maxch ∧ storeWords d ≤ c.depth
    ∧ d.wcur.length = d.dlm.toNat ∧ (∀ k ∈ d.wcur.map BitVec.toNat, k < d.dln.toNat)
    ∧ Memory.wf d.store ∧ ∀ w ∈ d.store, w.1 < storeWords d ∧ c.flen.fits w.2

/-- R24 for a constructed oscillator, and that its four registers hold `T` words. -/
abbrev OscInv (c : Config) (o : Oscillator) : Prop :=
  fgt c.flen o.srate zeroT = true ∧ o.inc = fdiv c.flen o.freq o.srate
    ∧ c.flen.fits o.freq ∧ c.flen.fits o.srate ∧ c.flen.fits o.phase ∧ c.flen.fits o.inc

/-- The invariant of the machine. -/
abbrev StateInv (s : State) : Prop :=
  s.cfg.wf ∧ (∀ d ∈ s.dl, RingInv s.cfg d) ∧ (∀ o ∈ s.lfo, OscInv s.cfg o)

/-! ### Responses and runs -/

/-- The `status` field of a response (R52). -/
def statusField (r : ResponseWord) : BitVec 8 := r.extractLsb' 64 8

/-- The `value` field of a response (R52). -/
def valueField (r : ResponseWord) : BitVec 64 := r.extractLsb' 0 64

/-- Every response produced since the reset state, whatever became of it: taken, dropped or waiting. -/
def produced (s : State) : List ResponseWord := s.delivered ++ s.dropped ++ s.waiting

/-- The item is a command word. -/
def isCommand : Item → Bool
  | .command _ => true
  | .reset => false
  | .take => false

/-- The run is over (R169): the last command word has been taken, so its response has been produced. Resets, and the host's
taking of responses, may be still to come. DESIGN CHOICE (log 12, unsafe for such a run only): R169 speaks of the last command, so
when a run with no command word is over is left open; here it is over from its start. -/
abbrev RunOver (s : State) : Prop := s.pending.any isCommand = false

/-- The run is over and ended well (R169): every response has status `OK`. DESIGN CHOICE (log 12, safe): one that a reset
dropped (R157) is counted too. -/
abbrev EndedWell (s : State) : Prop := RunOver s ∧ ∀ r ∈ produced s, statusField r = statusOk

/-- Commands executed one after the other, while each answers a next state (R36). -/
def execAll : List Instr → State → Result
  | [], s => .next s
  | i :: is, s =>
    match exec i s with
    | .next t => execAll is t
    | .fault r => .fault r
    | .refused r => .refused r

/-! ### The delay line as a history -/

/-- `WCUR[ch]` of a delay line that holds the entry. -/
def cursorOf (d : DelayLine) (ch : Index) : Nat := (d.wcur.getD ch.toNat 0#32).toNat

/-- The word index of the sample written `delay` writes ago on channel `ch`, in the unsigned form of R81. -/
def delayedIndex (d : DelayLine) (ch : Index) (delay : Nat) : Nat :=
  let u := cursorOf d ch + d.dln.toNat - 1 - delay % d.dln.toNat
  ch.toNat * d.dln.toNat + (if d.dln.toNat ≤ u then u - d.dln.toNat else u)

/-- The sample written `delay` writes ago on channel `ch` (R93). -/
def delayedSample (d : DelayLine) (ch : Index) (delay : Nat) : Sample :=
  memRead d.store (delayedIndex d ch delay)

/-! ### Words and rounding as numbers -/

/-- `val(x)` of a finite word (R66). -/
def valQ (fl : Flen) (x : Sample) : ℚ := (valUnits fl x : ℚ) / (oneUnits fl : ℚ)

/-- The word of a value given by its binary32 and its binary64 bits. -/
def wordOf (fl : Flen) (w32 w64 : Sample) : Sample :=
  match fl with
  | .f32 => w32
  | .f64 => w64

/-- `2^emax * (2 - 2^(-p))`, from which on a result rounds to an infinity (R67). -/
def overflowQ (fl : Flen) : ℚ := 2 ^ emax fl * (2 - 1 / 2 ^ (fracBits fl + 1))

/-- `w` is `round_T(r)` (R67): it has the sign of `r`; it is an infinity exactly from the overflow threshold on; otherwise it
is finite and no finite word is nearer, and where another value is as near the fraction field of `w` is even. -/
def RoundsTo (fl : Flen) (r : ℚ) (w : Sample) : Prop :=
  signBit fl w = decide (r < 0) ∧
  if overflowQ fl ≤ |r| then fisinf fl w = true
  else isFinite fl w = true ∧ ∀ y : Sample, isFinite fl y = true →
    |valQ fl w - r| < |valQ fl y - r| ∨
      (|valQ fl w - r| = |valQ fl y - r| ∧ (valQ fl y = valQ fl w ∨ fracField fl w % 2 = 0))

/-! ### spec/opcode_table.json -/

/-- The `match` of an operation's row. -/
def tableMatch (o : Operation) : CommandWord := opcodeOf o ++ 0#128

/-- The `mask` of an operation's row at `FLEN` = 64, and its `mask_flen32` at `FLEN` = 32. -/
def tableMask (fl : Flen) (o : Operation) : CommandWord :=
  match fl, o with
  | .f64, .dlNew => 0xFFFFFFFFFF00000000FFFFFFFF00000000#136
  | .f64, .dlWrite => 0xFFFFFFFFFF000000000000000000000000#136
  | .f64, .dlRead => 0xFFFFFFFFFF00000000FFFFFFFF00000000#136
  | .f64, .dlReadi => 0xFFFFFFFFFF000000000000000000000000#136
  | .f64, .lfoNew => 0xFF00000000000000000000000000000000#136
  | .f64, .lfoSetf => 0xFF0000000000000000FFFFFFFFFFFFFFFF#136
  | .f64, .lfoNext => 0xFFFFFFFFFFFFFFFFFFFFFFFFFFFFFFFFFF#136
  | .f32, .dlNew => 0xFFFFFFFFFF00000000FFFFFFFF00000000#136
  | .f32, .dlWrite => 0xFFFFFFFFFF00000000FFFFFFFF00000000#136
  | .f32, .dlRead => 0xFFFFFFFFFF00000000FFFFFFFF00000000#136
  | .f32, .dlReadi => 0xFFFFFFFFFF00000000FFFFFFFF00000000#136
  | .f32, .lfoNew => 0xFFFFFFFFFF00000000FFFFFFFF00000000#136
  | .f32, .lfoSetf => 0xFFFFFFFFFF00000000FFFFFFFFFFFFFFFF#136
  | .f32, .lfoNext => 0xFFFFFFFFFFFFFFFFFFFFFFFFFFFFFFFFFF#136

end Sys2Proof.Machine
end

