-- ==== Sys2Proof/Certificates/Slice0/Obligations.lean ====
section
/-! DEFINITION. The statements about the block, for the provers. Each docstring names the rule of spec/ it formalises. -/

open Sys2Proof Sys2Proof.Machine

/-! ### Encoding (30_encoding) -/

/-- Decoding the word of a well-formed command gives it back, at either `FLEN`, every operand at every value (R45 to R48,
R50, R60). -/
def Obligations.DecodeOfEncode : Prop :=
  ∀ (fl : Flen) (i : Instr), i.wf fl → decode fl (encode i) = .ok i

/-- A word that decodes is the word of its command, and the command is well formed: no two words mean one command, and no
bit is ignored (R49, R50). -/
def Obligations.EncodeOfDecode : Prop :=
  ∀ (fl : Flen) (w : CommandWord) (i : Instr), decode fl w = .ok i → encode i = w ∧ i.wf fl

/-- A word is illegal exactly when (a) `op` is none of the seven values, or it is one of them and (b) an index slot has a
bit of 63:32 set, (c) an unused slot is not 0, or (d) `FLEN` = 32 and a float slot has a bit of 63:32 set (R49). -/
def Obligations.IllegalWordsExactly : Prop :=
  ∀ (fl : Flen) (w : CommandWord),
    (∃ e, decode fl w = .error e) ↔
      (∀ o, opField w ≠ opcodeOf o) ∨
      ∃ o, opField w = opcodeOf o ∧
        (((formatOf o).1 = .index ∧ (aField w).extractLsb' 32 32 ≠ 0#32) ∨
         ((formatOf o).2 = .index ∧ (bField w).extractLsb' 32 32 ≠ 0#32) ∨
         ((formatOf o).1 = .unused ∧ aField w ≠ 0#64) ∨
         ((formatOf o).2 = .unused ∧ bField w ≠ 0#64) ∨
         (fl = .f32 ∧ (formatOf o).1 = .float ∧ (aField w).extractLsb' 32 32 ≠ 0#32) ∨
         (fl = .f32 ∧ (formatOf o).2 = .float ∧ (bField w).extractLsb' 32 32 ≠ 0#32))

/-- The command words of R51's table, legal and illegal, decode as it says (R51). -/
def Obligations.WorkedWordsDecode : Prop :=
  (∀ fl : Flen, decode fl 0x1000000000000000030000000000000001#136 = .ok (.dlNew 3 1)
    ∧ decode fl 0x120000000000000000000000000000000B#136 = .ok (.dlRead 0 11)
    ∧ decode fl 0x2200000000000000000000000000000000#136 = .ok .lfoNext
    ∧ decode fl 0x0000000000000000000000000000000000#136 = .error .badOpcode
    ∧ decode fl 0x1200000001000000000000000000000000#136 = .error (.badSlot .a .index)
    ∧ decode fl 0x2200000000000000000000000000000001#136 = .error (.badSlot .b .unused))
  ∧ decode .f64 0x1100000000000000003FF0000000000000#136 = .ok (.dlWrite 0 0x3FF0000000000000)
  ∧ decode .f32 0x110000000000000000000000003F800000#136 = .ok (.dlWrite 0 0x3F800000)
  ∧ decode .f64 0x1300000000000000003FE0000000000000#136 = .ok (.dlReadi 0 0x3FE0000000000000)
  ∧ decode .f32 0x130000000000000000000000003F000000#136 = .ok (.dlReadi 0 0x3F000000)
  ∧ decode .f64 0x20403E000000000000408F400000000000#136 = .ok (.lfoNew 0x403E000000000000 0x408F400000000000)
  ∧ decode .f32 0x200000000041F0000000000000447A0000#136 = .ok (.lfoNew 0x41F00000 0x447A0000)
  ∧ decode .f64 0x21406F4000000000000000000000000000#136 = .ok (.lfoSetf 0x406F400000000000)
  ∧ decode .f32 0x1100000000000000003FF0000000000000#136 = .error (.badSlot .b .float)

/-- A word decodes to operation `o` exactly when it agrees with `o`'s row of spec/opcode_table.json on the bits of the row's
mask for the block's `FLEN` (R48, R49). -/
def Obligations.OpcodeTableAgrees : Prop :=
  ∀ (fl : Flen) (w : CommandWord) (o : Operation),
    (∃ i, decode fl w = .ok i ∧ operation i = o) ↔ w &&& tableMask fl o = tableMatch o

/-- The assembler never emits an illegal word (R55). -/
def Obligations.AssemblerEmitsLegalWords : Prop :=
  ∀ (fl : Flen) (text : List Char) (ws : List CommandWord), assemble fl text = some ws →
    ∀ w ∈ ws, ∃ i, decode fl w = .ok i

/-! ### The step (20_memory, 60_exceptions, 70_reset) -/

/-- A step of a block that is not halted, presented with a word that decodes to `i`, is `exec` of `i` at the state without
the presented item; with nothing presented a step changes nothing; a reset item is consumed and leaves the parameters; an item
by which the host takes a response moves the one that waits longest, if any, to those delivered (the model's item: log 7), and
changes nothing else (R36, R58, R154, R155). -/
def Obligations.StepRunsDecodedCommand : Prop :=
  (∀ (s : State) (w : CommandWord) (rest : List Item) (i : Instr),
    s.halt = none → s.pending = .command w :: rest → decode s.cfg.flen w = .ok i →
      step s = exec i { s with pending := rest })
  ∧ (∀ s : State, s.pending = [] → step s = .next s)
  ∧ (∀ (s : State) (rest : List Item), s.pending = .reset :: rest →
    ∃ t, step s = .next t ∧ t.cfg = s.cfg ∧ t.pending = rest)
  ∧ ∀ (s : State) (rest : List Item), s.pending = .take :: rest →
    (s.waiting = [] → step s = .next { s with pending := rest }) ∧
    ∀ r more, s.waiting = r :: more →
      step s = .next { s with pending := rest, waiting := more, delivered := s.delivered ++ [r] }

/-- A reset, in any state, a halted one included: `STATUS` and `FVAL` become 0 and every data element holds no value
(R156). A response that waits on the port is dropped, none is delivered by it, and those already taken stand; a command that a
reset follows before the host took its response is abandoned: its response is not delivered, and nothing of its writes is left
(R157). -/
def Obligations.StepTakesReset : Prop :=
  (∀ (s : State) (rest : List Item), s.pending = .reset :: rest →
    ∃ t, step s = .next t ∧ statusReg t = 0#32 ∧ fvalReg t = 0#64 ∧ t.dl = none ∧ t.lfo = none
      ∧ t.waiting = [] ∧ t.delivered = s.delivered ∧ t.dropped = s.dropped ++ s.waiting)
  ∧ ∀ (s t : State) (w : CommandWord) (rest : List Item),
    s.pending = .command w :: .reset :: rest → step s = .next t →
      ∃ u, step t = .next u ∧ statusReg u = 0#32 ∧ fvalReg u = 0#64 ∧ u.dl = none ∧ u.lfo = none
        ∧ u.waiting = [] ∧ u.delivered = s.delivered

/-- A command that reaches a halted block is discarded undecoded: no state is read or written, the response is `Halted`
with value 0, whatever the word (R144). -/
def Obligations.HaltedDiscardsEveryWord : Prop :=
  ∀ (s : State) (w : CommandWord) (rest : List Item),
    s.halt.isSome = true → s.pending = .command w :: rest →
      step s = .next { s with pending := rest, waiting := s.waiting ++ [0xFF#8 ++ 0#64] }

/-- A word the decoder calls illegal raises `IllegalCommand`, recording `op`, in a block that is not halted (R135). -/
def Obligations.IllegalWordFaults : Prop :=
  ∀ (s : State) (w : CommandWord) (rest : List Item) (e : Illegal),
    s.halt = none → s.pending = .command w :: rest → decode s.cfg.flen w = .error e →
      step s = .next { s with
        pending := rest
        halt := some ⟨.illegalCommand, (opField w).setWidth 64⟩
        waiting := s.waiting ++ [0x01#8 ++ (opField w).setWidth 64] }

/-- Only a reset ends the halt state: any other step of a halted block keeps the recorded fault and both units (R132,
R145, R146). -/
def Obligations.OnlyResetEndsHalt : Prop :=
  ∀ (s t : State) (f : FaultRecord), step s = .next t → s.halt = some f → (∀ rest, s.pending ≠ .reset :: rest) →
    t.halt = some f ∧ t.dl = s.dl ∧ t.lfo = s.lfo

/-- Every accepted command produces exactly one response, behind those that wait; no other step produces any or loses any from
the record; and outside a reset responses leave in the order in which they were produced (R52). -/
def Obligations.OneResponsePerCommand : Prop :=
  ∀ s t : State, step s = .next t →
    (∀ w rest, s.pending = .command w :: rest →
      t.pending = rest ∧ t.delivered = s.delivered ∧ t.dropped = s.dropped ∧ ∃ r, t.waiting = s.waiting ++ [r]) ∧
    ((∀ w rest, s.pending ≠ .command w :: rest) → (produced t).Perm (produced s)) ∧
    ((∀ rest, s.pending ≠ .reset :: rest) → t.dropped = s.dropped ∧ s.delivered <+: t.delivered
      ∧ s.delivered ++ s.waiting <+: t.delivered ++ t.waiting)

/-- What a response says: `Halted` and 0 from a block that had halted; `OK` exactly from a command that completed; else the
new `FCAUSE`, never 0, and the new `FVAL` (R53, R54). -/
def Obligations.ResponseTellsOutcome : Prop :=
  ∀ (s t : State) (w : CommandWord) (rest : List Item) (r : ResponseWord),
    step s = .next t → s.pending = .command w :: rest → t.waiting = s.waiting ++ [r] →
      (s.halt.isSome = true → r = 0xFF#8 ++ 0#64) ∧
      (s.halt = none → t.halt = none → statusField r = 0x00#8) ∧
      (s.halt = none → t.halt.isSome = true → r = fcauseField t ++ fvalReg t ∧ fcauseField t ≠ 0x00#8)

/-- Every step but a reset keeps the equivalence of R169: `HALT` = 0 exactly when every response produced has status `OK`. So a
run whose only reset comes first ended well exactly when `HALT` = 0 at its end, the end being that no command word is still to
come (R169; the model's choice for a run with no command, and for responses that a reset dropped: log 12). -/
def Obligations.HaltIffSomeResponseNotOk : Prop :=
  (∀ c : Config, (State.resetOf c).halt = none ↔ ∀ r ∈ produced (State.resetOf c), statusField r = statusOk) ∧
  ∀ s t : State, step s = .next t → (∀ rest, s.pending ≠ .reset :: rest) →
    (s.halt = none ↔ ∀ r ∈ produced s, statusField r = statusOk) →
      ((t.halt = none ↔ ∀ r ∈ produced t, statusField r = statusOk)
        ∧ (RunOver t → (EndedWell t ↔ t.halt = none)))

/-- A command that faults writes `HALT`, `FCAUSE` and `FVAL`, gives its response, and changes nothing else (R133, R134). -/
def Obligations.FaultsArePrecise : Prop :=
  ∀ (i : Instr) (s t : State), exec i s = .next t → s.halt = none → t.halt ≠ none →
    ∃ (c : Cause) (v : BitVec 64),
      t = { s with halt := some ⟨c, v⟩, waiting := s.waiting ++ [causeCode c ++ v] }

/-- No step writes the parameters; none writes `DLN`, `DLM` or `SRATE` of a constructed unit (R11, R17, R25). -/
def Obligations.SizesNeverRewritten : Prop :=
  ∀ s t : State, step s = .next t →
    t.cfg = s.cfg ∧
    (∀ d d', s.dl = some d → t.dl = some d' → d'.dln = d.dln ∧ d'.dlm = d.dlm) ∧
    (∀ o o', s.lfo = some o → t.lfo = some o' → o'.srate = o.srate)

/-- `DLV` is set only by a `DL.NEW` that completes, `LFV` only by an `LFO.NEW` that completes; both are cleared only by
reset (R15). -/
def Obligations.OnlyNewConstructs : Prop :=
  (∀ (i : Instr) (s t : State), exec i s = .next t → s.dl = none → t.dl ≠ none →
    (∃ n m, i = .dlNew n m) ∧ t.halt = none) ∧
  (∀ (i : Instr) (s t : State), exec i s = .next t → s.lfo = none → t.lfo ≠ none →
    (∃ f sr, i = .lfoNew f sr) ∧ t.halt = none) ∧
  (∀ s t : State, step s = .next t → (s.dl ≠ none ∧ t.dl = none) ∨ (s.lfo ≠ none ∧ t.lfo = none) →
    ∃ rest, s.pending = .reset :: rest)

/-- Every step keeps the invariant: the parameters in range; sizes, cursors and storage of a constructed delay line in range
and in form; `SRATE` > 0 and `INC` = `fdiv(FREQ, SRATE)` for a constructed oscillator (R23, R24). -/
def Obligations.StepKeepsInvariant : Prop :=
  ∀ s t : State, StateInv s → step s = .next t → StateInv t

/-- The invariant holds right after reset, for every legal choice of the parameters, the model's own choice for
`State.reset` (log entry 1) among them. -/
def Obligations.ResetMeetsInvariant : Prop :=
  (∀ c : Config, c.wf → StateInv (State.resetOf c)) ∧ StateInv State.reset

/-- Under the invariant every step answers a next state: the model's own stops are never reached (R101; no point of the block
is stuck). -/
def Obligations.StepNeverStops : Prop :=
  ∀ s : State, StateInv s → ∃ t, step s = .next t

/-- The state after reset, for every choice of the parameters: `STATUS` and `FVAL` read 0 and no data element holds a value
(R22). -/
def Obligations.ResetLeaves : Prop :=
  ∀ c : Config, statusReg (State.resetOf c) = 0#32 ∧ fvalReg (State.resetOf c) = 0#64
    ∧ (State.resetOf c).dl = none ∧ (State.resetOf c).lfo = none

/-- The two units share no data state: what an oscillator command answers and leaves in the oscillator does not depend on the
delay line, and the reverse (R2, R26). -/
def Obligations.UnitsShareNoData : Prop :=
  (∀ (i : Instr) (s s' t t' : State), operation i ∈ [Operation.lfoNew, .lfoSetf, .lfoNext] →
    s.cfg = s'.cfg → s.lfo = s'.lfo → s.halt = s'.halt → exec i s = .next t → exec i s' = .next t' →
      t.lfo = t'.lfo ∧ t.halt = t'.halt ∧
        ∃ r, t.waiting = s.waiting ++ [r] ∧ t'.waiting = s'.waiting ++ [r]) ∧
  (∀ (i : Instr) (s s' t t' : State), operation i ∈ [Operation.dlNew, .dlWrite, .dlRead, .dlReadi] →
    s.cfg = s'.cfg → s.dl = s'.dl → s.halt = s'.halt → exec i s = .next t → exec i s' = .next t' →
      t.dl = t'.dl ∧ t.halt = t'.halt ∧
        ∃ r, t.waiting = s.waiting ++ [r] ∧ t'.waiting = s'.waiting ++ [r])

/-- The fields of `STATUS`, in every state: `DLV` bit 0, `LFV` bit 1, `HALT` bit 2, `FCAUSE` bits 15:8, the rest 0; `HALT` = 1
exactly when `FCAUSE` is not 0x00; `FVAL` is 0 while `HALT` = 0 (R15, R16). -/
def Obligations.StatusFieldLayout : Prop :=
  ∀ s : State,
    (statusReg s).getLsbD 0 = s.dl.isSome ∧ (statusReg s).getLsbD 1 = s.lfo.isSome
    ∧ (statusReg s).getLsbD 2 = s.halt.isSome ∧ (statusReg s).extractLsb' 3 5 = 0#5
    ∧ (statusReg s).extractLsb' 8 8 = (match s.halt with | none => 0x00#8 | some f => causeCode f.cause)
    ∧ (statusReg s).extractLsb' 16 16 = 0#16
    ∧ ((statusReg s).getLsbD 2 = true ↔ (statusReg s).extractLsb' 8 8 ≠ 0x00#8)
    ∧ (s.halt = none → fvalReg s = 0#64) ∧ (∀ f, s.halt = some f → fvalReg s = f.fval)

/-! ### Faults of the commands (60_exceptions) -/

/-- A command for a unit that is not constructed raises `NotConstructed` with its opcode, whatever the other unit (R136). -/
def Obligations.UnconstructedUnitFaults : Prop :=
  (∀ (s : State) (i : Instr), s.halt = none → s.dl = none → operation i ∈ [Operation.dlWrite, .dlRead, .dlReadi] →
    exec i s = .next { s with
      halt := some ⟨.notConstructed, (opcodeOf (operation i)).setWidth 64⟩
      waiting := s.waiting ++ [0x02#8 ++ (opcodeOf (operation i)).setWidth 64] }) ∧
  (∀ (s : State) (i : Instr), s.halt = none → s.lfo = none → operation i ∈ [Operation.lfoSetf, .lfoNext] →
    exec i s = .next { s with
      halt := some ⟨.notConstructed, (opcodeOf (operation i)).setWidth 64⟩
      waiting := s.waiting ++ [0x02#8 ++ (opcodeOf (operation i)).setWidth 64] })

/-- A `NEW` for a constructed unit raises `AlreadyConstructed` with its opcode, whatever its operands (R137). -/
def Obligations.SecondConstructionFaults : Prop :=
  (∀ (s : State) (n m : Index), s.halt = none → s.dl.isSome = true →
    exec (.dlNew n m) s = .next { s with
      halt := some ⟨.alreadyConstructed, 0x10#64⟩, waiting := s.waiting ++ [0x03#8 ++ 0x10#64] }) ∧
  (∀ (s : State) (f sr : Sample), s.halt = none → s.lfo.isSome = true →
    exec (.lfoNew f sr) s = .next { s with
      halt := some ⟨.alreadyConstructed, 0x20#64⟩, waiting := s.waiting ++ [0x03#8 ++ 0x20#64] })

/-- The operand faults of the two constructions. `DL.NEW` with `buffer_size` = 0 raises `ZeroCapacity` with 0, whatever
`num_channels` (R138); otherwise one that asks for more than `MAXCH` channels or, by the exact product, more than `DEPTH` words
raises `AllocationFailure` with `{num_channels, buffer_size}` (R139). `LFO.NEW` with a `sample_rate` that is not greater than
zero raises `BadSampleRate` with its bits (R140). -/
def Obligations.ConstructionOperandFaults : Prop :=
  (∀ (s : State) (m : Index), s.halt = none → s.dl = none →
    exec (.dlNew 0#32 m) s = .next { s with
      halt := some ⟨.zeroCapacity, 0#64⟩, waiting := s.waiting ++ [0x04#8 ++ 0#64] }) ∧
  (∀ (s : State) (n m : Index), s.halt = none → s.dl = none → 1 ≤ n.toNat →
    s.cfg.maxch < m.toNat ∨ s.cfg.depth < n.toNat * m.toNat →
    exec (.dlNew n m) s = .next { s with
      halt := some ⟨.allocationFailure, m ++ n⟩, waiting := s.waiting ++ [0x05#8 ++ (m ++ n)] }) ∧
  (∀ (s : State) (f sr : Sample), s.halt = none → s.lfo = none → fgt s.cfg.flen sr zeroT = false →
    exec (.lfoNew f sr) s = .next { s with
      halt := some ⟨.badSampleRate, sr⟩, waiting := s.waiting ++ [0x06#8 ++ sr] })

/-- A delay-line access with `channel >= DLM` raises `ChannelOutOfRange` with the channel, whatever the other operand
(R141). -/
def Obligations.ChannelOutOfRangeFaults : Prop :=
  ∀ (s : State) (d : DelayLine) (ch : Index) (i : Instr), s.halt = none → s.dl = some d → d.dlm.toNat ≤ ch.toNat →
    ((∃ x, i = .dlWrite ch x) ∨ (∃ k, i = .dlRead ch k) ∨ (∃ x, i = .dlReadi ch x)) →
    exec i s = .next { s with
      halt := some ⟨.channelOutOfRange, ch.setWidth 64⟩, waiting := s.waiting ++ [0x07#8 ++ ch.setWidth 64] }

/-- `DL.READI` on a channel in range raises `InvalidDelay` with the bits of the delay when it is a NaN, an infinity, less than
zero, or at least 2^32 - 1 (R142). -/
def Obligations.InvalidDelayFaults : Prop :=
  ∀ (s : State) (d : DelayLine) (ch : Index) (x : Sample),
    s.halt = none → s.dl = some d → RingInv s.cfg d → ch.toNat < d.dlm.toNat →
    (isFinite s.cfg.flen x = false ∨ valQ s.cfg.flen x < 0 ∨ 2 ^ 32 - 1 ≤ valQ s.cfg.flen x) →
    exec (.dlReadi ch x) s = .next { s with
      halt := some ⟨.invalidDelay, x⟩, waiting := s.waiting ++ [0x08#8 ++ x] }

/-! ### The delay line (41_delay_line) -/

/-- `DL.NEW n, m` with 1 <= n, m <= `MAXCH` and n * m <= `DEPTH` completes, from an unconstructed delay line: `DLN`, `DLM`, n * m
words +0, m cursors 0, `DLV` 1, response `OK` 0, the oscillator untouched (R90). -/
def Obligations.CompletesDlNew : Prop :=
  ∀ (s : State) (n m : Index), s.halt = none → s.dl = none →
    1 ≤ n.toNat → m.toNat ≤ s.cfg.maxch → n.toNat * m.toNat ≤ s.cfg.depth →
    ∃ t d, exec (.dlNew n m) s = .next t ∧ t = { s with dl := some d, waiting := s.waiting ++ [0x00#8 ++ 0#64] }
      ∧ d.dln = n ∧ d.dlm = m ∧ (∀ i < n.toNat * m.toNat, memRead d.store i = 0#64)
      ∧ (∀ c < m.toNat, d.wcur[c]? = some 0#32) ∧ dlvBit t = true

/-- `DL.WRITE ch, x` on a channel in range completes: `x` is stored unchanged at `ch * DLN + WCUR[ch]`, then `WCUR[ch]` becomes
`(WCUR[ch] + 1) mod DLN`, response `OK` 0 (R91). -/
def Obligations.CompletesDlWrite : Prop :=
  ∀ (s : State) (d : DelayLine) (ch : Index) (x : Sample),
    s.halt = none → s.dl = some d → RingInv s.cfg d → ch.toNat < d.dlm.toNat →
    ∃ d', exec (.dlWrite ch x) s =
        .next { s with dl := some d', waiting := s.waiting ++ [0x00#8 ++ 0#64] }
      ∧ memRead d'.store (ch.toNat * d.dln.toNat + cursorOf d ch) = x
      ∧ cursorOf d' ch = (cursorOf d ch + 1) % d.dln.toNat
      ∧ (∀ i, i ≠ ch.toNat * d.dln.toNat + cursorOf d ch → memRead d'.store i = memRead d.store i)
      ∧ (∀ c, c ≠ ch.toNat → d'.wcur[c]? = d.wcur[c]?) ∧ d'.dln = d.dln ∧ d'.dlm = d.dlm

/-- `DL.READ ch, k` on a channel in range completes for every delay: the response carries the stored bits of the word at
`ch * DLN + j`, where `j` is `WCUR[ch] - (k mod DLN) - 1`, plus `DLN` if that is negative; no state is written (R92,
R93). -/
def Obligations.CompletesDlRead : Prop :=
  ∀ (s : State) (d : DelayLine) (ch k : Index),
    s.halt = none → s.dl = some d → RingInv s.cfg d → ch.toNat < d.dlm.toNat →
    ∃ j : Nat, j < d.dln.toNat
      ∧ (let j0 : Int := (cursorOf d ch : Int) - (k.toNat % d.dln.toNat : Nat) - 1
         (j : Int) = if j0 < 0 then j0 + d.dln.toNat else j0)
      ∧ exec (.dlRead ch k) s =
          .next { s with waiting := s.waiting ++ [0x00#8 ++ memRead d.store (ch.toNat * d.dln.toNat + j)] }

/-- `DL.READI ch, x` on a channel in range, with 0 <= x < 2^32 - 1, completes: with i = floor(x), y1 and y2 the samples at
delays i and i + 1, and fr = fsub(x, ffloor(x)), the response carries fadd(y1, fmul(fr, fsub(y2, y1))); no state is written
(R94). -/
def Obligations.CompletesDlReadi : Prop :=
  ∀ (s : State) (d : DelayLine) (ch : Index) (x : Sample),
    s.halt = none → s.dl = some d → RingInv s.cfg d → ch.toNat < d.dlm.toNat →
    isFinite s.cfg.flen x = true → 0 ≤ valQ s.cfg.flen x → valQ s.cfg.flen x < 2 ^ 32 - 1 →
    ∃ i : Nat, (i : Int) = ⌊valQ s.cfg.flen x⌋ ∧
      let y1 := delayedSample d ch i
      let y2 := delayedSample d ch (i + 1)
      let fr := fsub s.cfg.flen x (ffloor s.cfg.flen x)
      exec (.dlReadi ch x) s = .next { s with
        waiting := s.waiting ++
          [0x00#8 ++ fadd s.cfg.flen y1 (fmul s.cfg.flen fr (fsub s.cfg.flen y2 y1))] }

/-- What `DL.NEW` leaves unchanged, whether it completes or faults: the parameters, the oscillator, what is pending, the
responses delivered and dropped, and, unless it completes, all of the delay line; a constructed delay line is never changed
(R26, R134). -/
def Obligations.FrameDlNew : Prop :=
  ∀ (n m : Index) (s t : State), exec (.dlNew n m) s = .next t →
    t.cfg = s.cfg ∧ t.lfo = s.lfo ∧ t.pending = s.pending ∧ t.delivered = s.delivered ∧ t.dropped = s.dropped
      ∧ (t.halt = s.halt ∨ (s.halt = none ∧ t.dl = s.dl)) ∧ (s.dl.isSome = true → t.dl = s.dl)

/-- What `DL.WRITE` leaves unchanged: the parameters, the oscillator, what is pending, the responses delivered and dropped;
`DLN` and `DLM`; every cursor but the channel's; every word of storage but the one at the address the meaning forms, `slotAddress` of the channel and its cursor;
if it faults, all of the delay line (R26, R91, R134). -/
def Obligations.FrameDlWrite : Prop :=
  ∀ (ch : Index) (x : Sample) (s t : State), exec (.dlWrite ch x) s = .next t →
    t.cfg = s.cfg ∧ t.lfo = s.lfo ∧ t.pending = s.pending ∧ t.delivered = s.delivered ∧ t.dropped = s.dropped
      ∧ t.dl.isSome = s.dl.isSome ∧ (t.halt = s.halt ∨ (s.halt = none ∧ t.dl = s.dl))
      ∧ ∀ d d', s.dl = some d → t.dl = some d' →
          d'.dln = d.dln ∧ d'.dlm = d.dlm ∧ (∀ c, c ≠ ch.toNat → d'.wcur[c]? = d.wcur[c]?)
          ∧ ∀ i : Nat, (i : Int) ≠ slotAddress d ch (cursorOf d ch) → memRead d'.store i = memRead d.store i

/-- What `DL.READ` and `DL.READI` leave unchanged: everything but the responses that wait and, if they fault, `HALT`,
`FCAUSE` and `FVAL`: a read has no side effect (R26, R35). -/
def Obligations.FrameDelayedReads : Prop :=
  ∀ (i : Instr) (s t : State), operation i ∈ [Operation.dlRead, .dlReadi] → exec i s = .next t →
    t.cfg = s.cfg ∧ t.dl = s.dl ∧ t.lfo = s.lfo ∧ t.pending = s.pending ∧ t.delivered = s.delivered ∧ t.dropped = s.dropped
      ∧ (t.halt = s.halt ∨ s.halt = none)

/-- A write makes its sample the newest of the channel and every older sample that is retained one write older (R96), and
changes no delayed sample of another channel (R40). -/
def Obligations.WriteShiftsOwnChannelOnly : Prop :=
  ∀ (s t : State) (d d' : DelayLine) (ch : Index) (x : Sample),
    s.halt = none → s.dl = some d → RingInv s.cfg d → ch.toNat < d.dlm.toNat →
    exec (.dlWrite ch x) s = .next t → t.dl = some d' →
      delayedSample d' ch 0 = x
      ∧ (∀ j, j + 1 < d.dln.toNat → delayedSample d' ch (j + 1) = delayedSample d ch j)
      ∧ ∀ (c : Index) (j : Nat), c ≠ ch → c.toNat < d.dlm.toNat → delayedSample d' c j = delayedSample d c j

/-- After `DL.NEW n, m` and any sequence of writes to channels in range, with vs the samples written to channel `ch`, oldest
first: `WCUR[ch]` is their number mod n, and `DL.READ ch, k` answers the sample written `k mod n` writes ago, or +0 where there
were not that many (R95, R96, R97, R40). -/
def Obligations.ReadReturnsHistory : Prop :=
  ∀ (s : State) (n m ch k : Index) (writes : List (Index × Sample)),
    s.halt = none → s.dl = none → 1 ≤ n.toNat → m.toNat ≤ s.cfg.maxch → n.toNat * m.toNat ≤ s.cfg.depth →
    ch.toNat < m.toNat → (∀ w ∈ writes, w.1.toNat < m.toNat) →
    let vs := (writes.filter fun w => w.1 == ch).map Prod.snd
    let back := k.toNat % n.toNat
    ∃ t d, execAll (.dlNew n m :: writes.map fun w => .dlWrite w.1 w.2) s = .next t ∧ t.dl = some d
      ∧ cursorOf d ch = vs.length % n.toNat
      ∧ exec (.dlRead ch k) t = .next { t with
          waiting := t.waiting ++
            [0x00#8 ++ (if back < vs.length then vs.getD (vs.length - 1 - back) 0#64 else 0#64)] }

/-- Interpolation at an integral delay, where the fraction is +0: the value is that of `y1` when both samples and their
difference are finite, and so are the bits unless `y1` is -0 and the product is +0, where the result is +0; with a sample or
the difference not finite the result is `CNAN_T` (R99). -/
def Obligations.IntegralDelayReadsSample : Prop :=
  (∀ (fl : Flen) (x : Sample), isFinite fl x = true → valUnits fl x % (oneUnits fl : Int) = 0 →
    fsub fl x (ffloor fl x) = zeroT) ∧
  (∀ (fl : Flen) (y1 y2 : Sample), fl.fits y1 → fl.fits y2 →
    isFinite fl y1 = true → isFinite fl y2 = true → isFinite fl (fsub fl y2 y1) = true →
      valQ fl (interpolate fl y1 y2 zeroT) = valQ fl y1
      ∧ (y1 = zeroOf fl true ∧ fmul fl zeroT (fsub fl y2 y1) = zeroT → interpolate fl y1 y2 zeroT = zeroT)
      ∧ (¬ (y1 = zeroOf fl true ∧ fmul fl zeroT (fsub fl y2 y1) = zeroT) → interpolate fl y1 y2 zeroT = y1)) ∧
  (∀ (fl : Flen) (y1 y2 : Sample),
    isFinite fl y1 = false ∨ isFinite fl y2 = false ∨ isFinite fl (fsub fl y2 y1) = false →
      interpolate fl y1 y2 zeroT = cnanT fl)

/-- Writing 1.0 then 2.0 to a channel and reading it at delay 0.5 answers 1.5, from every state of a ring of at least two words;
a ring of one word holds only the 2.0 and answers that (R100, R94). -/
def Obligations.MidpointOfOneAndTwo : Prop :=
  ∀ (s : State) (d : DelayLine) (ch : Index),
    s.halt = none → s.dl = some d → RingInv s.cfg d → ch.toNat < d.dlm.toNat →
    let fl := s.cfg.flen
    let two := wordOf fl 0x40000000#64 0x4000000000000000#64
    let half := wordOf fl 0x3F000000#64 0x3FE0000000000000#64
    let threeHalves := wordOf fl 0x3FC00000#64 0x3FF8000000000000#64
    ∃ t, execAll [.dlWrite ch (oneT fl), .dlWrite ch two, .dlReadi ch half] s = .next t
      ∧ t.waiting = s.waiting ++
          [0x00#8 ++ 0#64, 0x00#8 ++ 0#64, 0x00#8 ++ (if d.dln = 1#32 then two else threeHalves)]

/-! ### The oscillator (42_lfo) -/

/-- `LFO.NEW f, sr` with `sr` > 0 completes from an unconstructed oscillator: `FREQ` = f, `SRATE` = sr, `INC` = fdiv(f, sr), `PHASE` =
+0, `LFV` 1, response `OK` 0, the delay line untouched (R110). -/
def Obligations.CompletesLfoNew : Prop :=
  ∀ (s : State) (f sr : Sample), s.halt = none → s.lfo = none → fgt s.cfg.flen sr zeroT = true →
    ∃ t, exec (.lfoNew f sr) s = .next t
      ∧ t = { s with
          lfo := some { freq := f, srate := sr, phase := 0#64, inc := fdiv s.cfg.flen f sr }
          waiting := s.waiting ++ [0x00#8 ++ 0#64] }
      ∧ lfvBit t = true

/-- `LFO.SETF f` completes for every `f` when the oscillator is constructed: `FREQ` = f, `INC` = fdiv(f, `SRATE`), `PHASE` and `SRATE`
untouched, response `OK` 0 (R111). -/
def Obligations.CompletesLfoSetf : Prop :=
  ∀ (s : State) (o : Oscillator) (f : Sample), s.halt = none → s.lfo = some o →
    exec (.lfoSetf f) s = .next { s with
      lfo := some { freq := f, srate := o.srate, phase := o.phase, inc := fdiv s.cfg.flen f o.srate }
      waiting := s.waiting ++ [0x00#8 ++ 0#64] }

/-- `LFO.NEXT` completes when the oscillator is constructed: `PHASE` becomes p', which is p = fadd(`PHASE`, `INC`) wrapped as R113 or
R114 says for the block's `PHASE_WRAP`; the response carries fsin(fsub(fmul(p', `TWO_PI_T`), `PI_T`)) (R112, R113, R114,
R115). -/
def Obligations.CompletesLfoNext : Prop :=
  ∀ (s : State) (o : Oscillator), s.halt = none → s.lfo = some o →
    let fl := s.cfg.flen
    let p := fadd fl o.phase o.inc
    let p' := match s.cfg.phaseWrap with
      | .reset => if fgt fl p (oneT fl) = true then 0#64 else p
      | .frac => fsub fl p (ffloor fl p)
    exec .lfoNext s = .next { s with
      lfo := some { freq := o.freq, srate := o.srate, phase := p', inc := o.inc }
      waiting := s.waiting ++
        [0x00#8 ++ fsin s.cfg.sine fl (fsub fl (fmul fl p' (twoPiT fl)) (piT fl))] }

/-- What the oscillator commands leave unchanged: the parameters, all of the delay line and its storage, what is pending, the
responses delivered and dropped; and of a constructed oscillator, `LFO.SETF` leaves `SRATE` and `PHASE`, `LFO.NEXT` leaves `FREQ`, `SRATE` and `INC`, and `LFO.NEW` all of it
(R26, R110 to R112, R134). -/
def Obligations.FrameOscillatorCommands : Prop :=
  ∀ (i : Instr) (s t : State), operation i ∈ [Operation.lfoNew, .lfoSetf, .lfoNext] → exec i s = .next t →
    t.cfg = s.cfg ∧ t.dl = s.dl ∧ t.pending = s.pending ∧ t.delivered = s.delivered ∧ t.dropped = s.dropped
    ∧ (t.halt = s.halt ∨ (s.halt = none ∧ t.lfo = s.lfo))
    ∧ ∀ o o', s.lfo = some o → t.lfo = some o' →
        (operation i = .lfoNew → o' = o)
        ∧ (operation i = .lfoSetf → o'.srate = o.srate ∧ o'.phase = o.phase)
        ∧ (operation i = .lfoNext → o'.freq = o.freq ∧ o'.srate = o.srate ∧ o'.inc = o.inc)

/-- With `PHASE_WRAP` = `RESET`, after every `LFO.NEXT` that a running block answers the phase is not greater than 1 (R24,
R113). -/
def Obligations.ResetPhaseNotAboveOne : Prop :=
  ∀ (s t : State) (o : Oscillator), s.cfg.phaseWrap = .reset → s.halt = none → exec .lfoNext s = .next t →
    t.lfo = some o → fgt s.cfg.flen o.phase (oneT s.cfg.flen) = false

/-- With `PHASE_WRAP` = `FRAC`, after every `LFO.NEXT` whose advanced phase p is finite the phase is finite and in [0, 1], and for
p >= 0 it is exactly p less its floor (R24, R114). -/
def Obligations.FracPhaseInUnitInterval : Prop :=
  ∀ (s t : State) (o o' : Oscillator), s.cfg.phaseWrap = .frac → s.halt = none → s.lfo = some o →
    exec .lfoNext s = .next t → t.lfo = some o' →
    let fl := s.cfg.flen
    let p := fadd fl o.phase o.inc
    isFinite fl p = true →
      isFinite fl o'.phase = true ∧ 0 ≤ valQ fl o'.phase ∧ valQ fl o'.phase ≤ 1
      ∧ (0 ≤ valQ fl p → valQ fl o'.phase = valQ fl p - ⌊valQ fl p⌋)

/-- The output of `LFO.NEXT` is in [-1, 1] when the angle is finite, and `CNAN_T` when it is not, whatever sine function the block
has (R116, R84). -/
def Obligations.OutputBounded : Prop :=
  ∀ (s t : State) (o : Oscillator), s.halt = none → s.lfo = some o → exec .lfoNext s = .next t →
    let fl := s.cfg.flen
    let angle := phaseAngle fl (nextPhase s.cfg o)
    ∃ y, t.waiting = s.waiting ++ [0x00#8 ++ y]
      ∧ (isFinite fl angle = true → isFinite fl y = true ∧ -1 ≤ valQ fl y ∧ valQ fl y ≤ 1)
      ∧ (isFinite fl angle = false → y = cnanT fl)

/-- A NaN phase or increment makes the phase `CNAN_T` and the output `CNAN_T`, in both wrap modes, and no fault (R119). -/
def Obligations.NanPhasePersists : Prop :=
  ∀ (s : State) (o : Oscillator), s.halt = none → s.lfo = some o →
    fisnan s.cfg.flen o.phase = true ∨ fisnan s.cfg.flen o.inc = true →
    exec .lfoNext s = .next { s with
      lfo := some { o with phase := cnanT s.cfg.flen }
      waiting := s.waiting ++ [0x00#8 ++ cnanT s.cfg.flen] }

/-- Degenerate increments from phase +0: a zero `INC` in either mode, and an `INC` greater than 1 with `RESET`, leave the phase at
+0, and the output is fsin(-`PI_T`) (R118). -/
def Obligations.DegenerateIncrementIsStatic : Prop :=
  ∀ (s : State) (o : Oscillator), s.halt = none → s.lfo = some o → o.phase = zeroT →
    fiszero s.cfg.flen o.inc = true ∨
      (s.cfg.phaseWrap = .reset ∧ fgt s.cfg.flen o.inc (oneT s.cfg.flen) = true) →
    exec .lfoNext s = .next { s with
      waiting := s.waiting ++ [0x00#8 ++ fsin s.cfg.sine s.cfg.flen (fneg s.cfg.flen (piT s.cfg.flen))] }

/-- The sine of every block: S2, a finite operand gives a finite result in [-1, 1]; S3, a NaN or an infinity gives `CNAN_T`; S4, the
zeros map to themselves (R84). S1 holds of any function. -/
def Obligations.SineProperties : Prop :=
  ∀ (sine : Sine) (fl : Flen),
    (∀ a, isFinite fl a = true →
      isFinite fl (fsin sine fl a) = true ∧ -1 ≤ valQ fl (fsin sine fl a) ∧ valQ fl (fsin sine fl a) ≤ 1)
    ∧ (∀ a, isFinite fl a = false → fsin sine fl a = cnanT fl)
    ∧ fsin sine fl (zeroOf fl false) = zeroOf fl false ∧ fsin sine fl (zeroOf fl true) = zeroOf fl true

/-- The angle at the landmark phases +0, 0.25, 0.5 and 1 is -`PI_T`, -`PI_T`/2, +0 and `PI_T`, exactly (R115). -/
def Obligations.AngleLandmarks : Prop :=
  ∀ fl : Flen,
    phaseAngle fl zeroT = fneg fl (piT fl)
    ∧ phaseAngle fl (wordOf fl 0x3E800000#64 0x3FD0000000000000#64) = wordOf fl 0xBFC90FDB#64 0xBFF921FB54442D18#64
    ∧ phaseAngle fl (wordOf fl 0x3F000000#64 0x3FE0000000000000#64) = zeroT
    ∧ phaseAngle fl (oneT fl) = piT fl

/-! ### Arithmetic (40_numerics) -/

/-- The value of a finite word: (-1)^s * 2^emin * (f / 2^t) when e = 0, (-1)^s * 2^(e - bias) * (1 + f / 2^t) otherwise (R66). -/
def Obligations.FiniteWordValue : Prop :=
  ∀ (fl : Flen) (x : Sample), isFinite fl x = true →
    let e : Int := expField fl x
    let f : ℚ := fracField fl x
    let scale : ℚ := 2 ^ fracBits fl
    valQ fl x = (if signBit fl x = true then -1 else 1) *
      (if e = 0 then 2 ^ (1 - (emax fl : Int)) * (f / scale) else 2 ^ (e - (emax fl : Int)) * (1 + f / scale))

/-- `round_T` gives the nearest word, ties to even, an infinity from the overflow threshold on, and keeps the sign (R67). -/
def Obligations.RoundingIsNearestEven : Prop :=
  ∀ (fl : Flen) (sign : Bool) (num den : Nat), 0 < num → 0 < den →
    RoundsTo fl ((if sign then -1 else 1) * ((num : ℚ) / den) / oneUnits fl) (roundT fl sign num den)

/-- `fadd`: the NaN, infinity and exact-zero cases of R70 in its order, and otherwise the rounded sum (R70). -/
def Obligations.AdditionRounds : Prop :=
  ∀ (fl : Flen) (a b : Sample),
    (fisnan fl a = true ∨ fisnan fl b = true → fadd fl a b = cnanT fl)
    ∧ (fisinf fl a = true → fisinf fl b = true → signBit fl a ≠ signBit fl b → fadd fl a b = cnanT fl)
    ∧ (fisinf fl a = true → fisnan fl b = false → ¬ (fisinf fl b = true ∧ signBit fl a ≠ signBit fl b) →
        fadd fl a b = a)
    ∧ (isFinite fl a = true → fisinf fl b = true → fadd fl a b = b)
    ∧ (fiszero fl a = true → fiszero fl b = true →
        fadd fl a b = zeroOf fl (signBit fl a && signBit fl b))
    ∧ (isFinite fl a = true → isFinite fl b = true → fiszero fl a = false → valQ fl a + valQ fl b = 0 →
        fadd fl a b = zeroOf fl false)
    ∧ (isFinite fl a = true → isFinite fl b = true → valQ fl a + valQ fl b ≠ 0 →
        RoundsTo fl (valQ fl a + valQ fl b) (fadd fl a b))

/-- `fmul`: the NaN, infinity and zero cases of R72, and otherwise the rounded product (R72). -/
def Obligations.MultiplicationRounds : Prop :=
  ∀ (fl : Flen) (a b : Sample),
    let sg := signBit fl a != signBit fl b
    (fisnan fl a = true ∨ fisnan fl b = true → fmul fl a b = cnanT fl)
    ∧ ((fisinf fl a = true ∧ fiszero fl b = true) ∨ (fiszero fl a = true ∧ fisinf fl b = true) →
        fmul fl a b = cnanT fl)
    ∧ (fisnan fl a = false → fisnan fl b = false → fiszero fl a = false → fiszero fl b = false →
        fisinf fl a = true ∨ fisinf fl b = true → fmul fl a b = infOf fl sg)
    ∧ (isFinite fl a = true → isFinite fl b = true → fiszero fl a = true ∨ fiszero fl b = true →
        fmul fl a b = zeroOf fl sg)
    ∧ (isFinite fl a = true → isFinite fl b = true → fiszero fl a = false → fiszero fl b = false →
        RoundsTo fl (valQ fl a * valQ fl b) (fmul fl a b))

/-- `fdiv`: the seven cases of R73, the last the rounded quotient (R73). -/
def Obligations.DivisionRounds : Prop :=
  ∀ (fl : Flen) (a b : Sample),
    let sg := signBit fl a != signBit fl b
    (fisnan fl a = true ∨ fisnan fl b = true → fdiv fl a b = cnanT fl)
    ∧ ((fisinf fl a = true ∧ fisinf fl b = true) ∨ (fiszero fl a = true ∧ fiszero fl b = true) →
        fdiv fl a b = cnanT fl)
    ∧ (fisinf fl a = true → isFinite fl b = true → fdiv fl a b = infOf fl sg)
    ∧ (isFinite fl a = true → fisinf fl b = true → fdiv fl a b = zeroOf fl sg)
    ∧ (isFinite fl a = true → fiszero fl a = false → fiszero fl b = true → fdiv fl a b = infOf fl sg)
    ∧ (fiszero fl a = true → isFinite fl b = true → fiszero fl b = false → fdiv fl a b = zeroOf fl sg)
    ∧ (isFinite fl a = true → isFinite fl b = true → fiszero fl a = false → fiszero fl b = false →
        RoundsTo fl (valQ fl a / valQ fl b) (fdiv fl a b))

/-- `ffloor`: NaN gives `CNAN_T`, an infinity or a zero is unchanged, a value between 0 and 1 gives +0, and the result is always
exactly the floor; for a non-negative operand the fraction fsub(a, ffloor(a)) is exact (R74). -/
def Obligations.FloorIsExact : Prop :=
  ∀ (fl : Flen) (a : Sample),
    (fisnan fl a = true → ffloor fl a = cnanT fl)
    ∧ (fisinf fl a = true ∨ fiszero fl a = true → ffloor fl a = a)
    ∧ (isFinite fl a = true → 0 < valQ fl a → valQ fl a < 1 → ffloor fl a = zeroT)
    ∧ (isFinite fl a = true → isFinite fl (ffloor fl a) = true ∧ valQ fl (ffloor fl a) = ⌊valQ fl a⌋)
    ∧ (isFinite fl a = true → 0 ≤ valQ fl a →
        isFinite fl (fsub fl a (ffloor fl a)) = true
        ∧ valQ fl (fsub fl a (ffloor fl a)) = valQ fl a - ⌊valQ fl a⌋)

/-- `fgt` and `flt`: false on a NaN; -inf below and +inf above every finite value; otherwise by value, -0 equal to +0; `fisnan` is true
exactly of a word with e = 2^w - 1 and f not 0 (R75). -/
def Obligations.ComparisonByValue : Prop :=
  ∀ (fl : Flen) (a b : Sample),
    (fgt fl a b = true ↔ fisnan fl a = false ∧ fisnan fl b = false ∧
      ((isFinite fl a = true ∧ isFinite fl b = true ∧ valQ fl b < valQ fl a)
       ∨ (fisinf fl a = true ∧ signBit fl a = false ∧ ¬ (fisinf fl b = true ∧ signBit fl b = false))
       ∨ (fisinf fl b = true ∧ signBit fl b = true ∧ ¬ (fisinf fl a = true ∧ signBit fl a = true))))
    ∧ flt fl a b = fgt fl b a
    ∧ (fisnan fl a = true ↔ expField fl a = 2 ^ expBits fl - 1 ∧ fracField fl a ≠ 0)

/-- `f2idx` is defined exactly for a finite integral value in [0, 2^32 - 1], and gives that integer (R76). -/
def Obligations.IndexConversion : Prop :=
  ∀ (fl : Flen) (a : Sample) (n : Nat),
    f2idx fl a = some n ↔ isFinite fl a = true ∧ valQ fl a = n ∧ n ≤ 2 ^ 32 - 1

/-- Every operation that produces a NaN produces `CNAN_T` (R68), the block's sine among them (R84). -/
def Obligations.NanResultsAreCanonical : Prop :=
  ∀ (sine : Sine) (fl : Flen) (a b : Sample),
    (fisnan fl (fadd fl a b) = true → fadd fl a b = cnanT fl)
    ∧ (fisnan fl (fsub fl a b) = true → fsub fl a b = cnanT fl)
    ∧ (fisnan fl (fmul fl a b) = true → fmul fl a b = cnanT fl)
    ∧ (fisnan fl (fdiv fl a b) = true → fdiv fl a b = cnanT fl)
    ∧ (fisnan fl (ffloor fl a) = true → ffloor fl a = cnanT fl)
    ∧ (fisnan fl (fsin sine fl a) = true → fsin sine fl a = cnanT fl)

/-- `PI_T` and `TWO_PI_T` are within half a spacing of pi and of 2 pi, so the nearest words, and `TWO_PI_T` is exactly twice `PI_T`
(R69). -/
def Obligations.PiConstantsAreNearest : Prop :=
  ∀ fl : Flen,
    |((valQ fl (piT fl) : ℚ) : ℝ) - Real.pi| < 2 / 2 ^ (fracBits fl + 1)
    ∧ |((valQ fl (twoPiT fl) : ℚ) : ℝ) - 2 * Real.pi| < 4 / 2 ^ (fracBits fl + 1)
    ∧ valQ fl (twoPiT fl) = 2 * valQ fl (piT fl)
end

