-- ==== Sys2Proof/Laws/State.lean ====
section
/-! SUPPORT. One lemma per field per update of the state, by `rfl` (or by cases on what waits), so that no proof unfolds an update. -/

namespace Sys2Proof.Machine

variable (s : State) (st : BitVec 8) (v : BitVec 64) (w : CommandWord)

@[simp] theorem respond_cfg : (respond st v s).cfg = s.cfg := rfl
@[simp] theorem respond_dl : (respond st v s).dl = s.dl := rfl
@[simp] theorem respond_lfo : (respond st v s).lfo = s.lfo := rfl
@[simp] theorem respond_halt : (respond st v s).halt = s.halt := rfl
@[simp] theorem respond_pending : (respond st v s).pending = s.pending := rfl
@[simp] theorem respond_waiting : (respond st v s).waiting = s.waiting ++ [responseWord st v] := rfl
@[simp] theorem respond_delivered : (respond st v s).delivered = s.delivered := rfl
@[simp] theorem respond_dropped : (respond st v s).dropped = s.dropped := rfl

variable (c : Cause)

@[simp] theorem faulted_cfg : (faulted c v s).cfg = s.cfg := rfl
@[simp] theorem faulted_dl : (faulted c v s).dl = s.dl := rfl
@[simp] theorem faulted_lfo : (faulted c v s).lfo = s.lfo := rfl
@[simp] theorem faulted_halt : (faulted c v s).halt = some ⟨c, v⟩ := rfl
@[simp] theorem faulted_pending : (faulted c v s).pending = s.pending := rfl
@[simp] theorem faulted_waiting : (faulted c v s).waiting = s.waiting ++ [responseWord (causeCode c) v] := rfl
@[simp] theorem faulted_delivered : (faulted c v s).delivered = s.delivered := rfl
@[simp] theorem faulted_dropped : (faulted c v s).dropped = s.dropped := rfl

@[simp] theorem resetBlock_cfg : (resetBlock s).cfg = s.cfg := rfl
@[simp] theorem resetBlock_dl : (resetBlock s).dl = none := rfl
@[simp] theorem resetBlock_lfo : (resetBlock s).lfo = none := rfl
@[simp] theorem resetBlock_halt : (resetBlock s).halt = none := rfl
@[simp] theorem resetBlock_pending : (resetBlock s).pending = s.pending := rfl
@[simp] theorem resetBlock_waiting : (resetBlock s).waiting = [] := rfl
@[simp] theorem resetBlock_delivered : (resetBlock s).delivered = s.delivered := rfl
@[simp] theorem resetBlock_dropped : (resetBlock s).dropped = s.dropped ++ s.waiting := rfl

@[simp] theorem presentWord_cfg : (presentWord w s).cfg = s.cfg := rfl
@[simp] theorem presentWord_dl : (presentWord w s).dl = s.dl := rfl
@[simp] theorem presentWord_lfo : (presentWord w s).lfo = s.lfo := rfl
@[simp] theorem presentWord_halt : (presentWord w s).halt = s.halt := rfl
@[simp] theorem presentWord_pending : (presentWord w s).pending = .command w :: s.pending := rfl
@[simp] theorem presentWord_waiting : (presentWord w s).waiting = s.waiting := rfl
@[simp] theorem presentWord_delivered : (presentWord w s).delivered = s.delivered := rfl
@[simp] theorem presentWord_dropped : (presentWord w s).dropped = s.dropped := rfl

@[simp] theorem takeResponse_cfg : (takeResponse s).cfg = s.cfg := by cases h : s.waiting <;> simp [takeResponse, h]
@[simp] theorem takeResponse_dl : (takeResponse s).dl = s.dl := by cases h : s.waiting <;> simp [takeResponse, h]
@[simp] theorem takeResponse_lfo : (takeResponse s).lfo = s.lfo := by cases h : s.waiting <;> simp [takeResponse, h]
@[simp] theorem takeResponse_halt : (takeResponse s).halt = s.halt := by cases h : s.waiting <;> simp [takeResponse, h]
@[simp] theorem takeResponse_pending : (takeResponse s).pending = s.pending := by
  cases h : s.waiting <;> simp [takeResponse, h]
@[simp] theorem takeResponse_dropped : (takeResponse s).dropped = s.dropped := by
  cases h : s.waiting <;> simp [takeResponse, h]
@[simp] theorem takeResponse_waiting : (takeResponse s).waiting = s.waiting.tail := by
  cases h : s.waiting <;> simp [takeResponse, h]
@[simp] theorem takeResponse_delivered : (takeResponse s).delivered = s.delivered ++ s.waiting.take 1 := by
  cases h : s.waiting <;> simp [takeResponse, h]

variable (d : DelayLine) (ch k n m : Index)

@[simp] theorem setCursor_dln : (setCursor d ch k).dln = d.dln := rfl
@[simp] theorem setCursor_dlm : (setCursor d ch k).dlm = d.dlm := rfl
@[simp] theorem setCursor_wcur : (setCursor d ch k).wcur = d.wcur.set ch.toNat k := rfl
@[simp] theorem setCursor_store : (setCursor d ch k).store = d.store := rfl

@[simp] theorem freshDelayLine_dln : (freshDelayLine n m).dln = n := rfl
@[simp] theorem freshDelayLine_dlm : (freshDelayLine n m).dlm = m := rfl
@[simp] theorem freshDelayLine_wcur : (freshDelayLine n m).wcur = List.replicate m.toNat 0#32 := rfl
@[simp] theorem freshDelayLine_store : (freshDelayLine n m).store = [] := rfl

/-! ### The record of responses -/

/-- Taking a response moves it, and changes no order. -/
theorem takeResponse_order : (takeResponse s).delivered ++ (takeResponse s).waiting = s.delivered ++ s.waiting := by
  simp [List.append_assoc, ← List.drop_one, List.take_append_drop]

theorem statusField_responseWord : statusField (responseWord st v) = st := by
  unfold statusField responseWord; exact BitVec.extractLsb'_append_eq_left

theorem produced_respond : produced (respond st v s) = produced s ++ [responseWord st v] := by simp [produced]

theorem produced_resetBlock : produced (resetBlock s) = produced s := by simp [produced]

theorem produced_takeResponse : (produced (takeResponse s)).Perm (produced s) := by
  cases h : s.waiting with
  | nil => simp [produced, h]
  | cons r rest =>
    simp only [produced, takeResponse_delivered, takeResponse_dropped, takeResponse_waiting, h, List.take_one,
      List.head?_cons, Option.toList_some, List.tail_cons, List.append_assoc, List.cons_append, List.nil_append]
    exact List.Perm.append_left _ List.perm_middle.symm

end Sys2Proof.Machine
end

