-- ==== Sys2Proof/Laws/Memory.lean ====
section
/-! SUPPORT. Sample storage: reads after writes, and that every memory operation keeps the canonical form. -/

namespace Sys2Proof.Machine

/-- The listed addresses all lie above `i`. -/
theorem memRead_of_lt {m : Memory} {i : Nat} (h : ∀ c ∈ m, i < c.1) : memRead m i = 0#64 := by
  induction m with
  | nil => rfl
  | cons c m ih =>
    have hc := h c (by simp)
    simp only [memRead, if_neg (by omega : ¬ i = c.1)]
    exact ih fun c' hc' => h c' (by simp [hc'])

theorem memRead_memCons {m : Memory} {i j : Nat} {v : Sample} (h : ∀ c ∈ m, i < c.1) :
    memRead (memCons i v m) j = if j = i then v else memRead m j := by
  unfold memCons
  split
  · subst v
    split
    · subst j; exact memRead_of_lt h
    · rfl
  · rfl

/-- A write leaves every other word alone, whatever the form of the memory. -/
theorem memRead_memWrite_other {m : Memory} {i j : Nat} {v : Sample} (h : j ≠ i) :
    memRead (memWrite m i v) j = memRead m j := by
  induction m with
  | nil => simp only [memWrite, memCons]; split <;> simp [memRead, h]
  | cons c m ih =>
    obtain ⟨k, w⟩ := c
    simp only [memWrite]
    split
    · simp only [memCons]; split <;> simp [memRead, h]
    · split
      · simp only [memCons]; split <;> simp_all [memRead]
      · simp only [memRead, ih]

/-- In canonical form a read after a write gives the word written. -/
theorem memRead_memWrite_same {m : Memory} {i : Nat} {v : Sample} (h : Memory.wf m) :
    memRead (memWrite m i v) i = v := by
  induction m with
  | nil => simp only [memWrite]; rw [memRead_memCons (by simp)]; simp
  | cons c m ih =>
    obtain ⟨k, w⟩ := c
    obtain ⟨hp, hz⟩ := h
    have hp' := List.pairwise_cons.mp hp
    simp only [memWrite]
    split
    · rw [memRead_memCons]
      · simp
      · intro c hc
        rcases List.mem_cons.mp hc with rfl | hc
        · assumption
        · have := hp'.1 c hc; simp only at this ⊢; omega
    · split
      · rename_i _ hik
        subst hik
        rw [memRead_memCons hp'.1]; simp
      · rename_i _ hik
        simp only [memRead, if_neg hik]
        exact ih ⟨hp'.2, fun c hc => hz c (by simp [hc])⟩

/-- The cells of a written memory: the one written, and old ones. -/
theorem mem_memWrite {m : Memory} {i : Nat} {v : Sample} {c : Nat × Sample} (h : c ∈ memWrite m i v) :
    (c = (i, v) ∧ v ≠ 0#64) ∨ c ∈ m := by
  induction m with
  | nil => simp only [memWrite, memCons] at h; split at h <;> simp_all
  | cons d m ih =>
    obtain ⟨k, w⟩ := d
    simp only [memWrite] at h
    split at h
    · simp only [memCons] at h; split at h <;> simp_all
    · split at h
      · simp only [memCons] at h; split at h
        · simp_all
        · simp_all; tauto
      · rcases List.mem_cons.mp h with rfl | h
        · simp
        · rcases ih h with h | h
          · exact .inl h
          · simp [h]

/-- Writing keeps the canonical form. -/
theorem memWrite_wf {m : Memory} {i : Nat} {v : Sample} (h : Memory.wf m) : Memory.wf (memWrite m i v) := by
  refine ⟨?_, fun c hc => ?_⟩
  · obtain ⟨hp, hz⟩ := h
    clear hz
    induction m with
    | nil => simp only [memWrite, memCons]; split <;> simp
    | cons c m ih =>
      obtain ⟨k, w⟩ := c
      have hp' := List.pairwise_cons.mp hp
      simp only [memWrite]
      split
      · rename_i hik
        simp only [memCons]
        split
        · exact hp
        · refine List.pairwise_cons.mpr ⟨fun c hc => ?_, hp⟩
          rcases List.mem_cons.mp hc with rfl | hc
          · exact hik
          · have := hp'.1 c hc; simp only at this ⊢; omega
      · split
        · rename_i _ hik
          subst hik
          simp only [memCons]
          split
          · exact hp'.2
          · exact List.pairwise_cons.mpr hp'
        · refine List.pairwise_cons.mpr ⟨fun c hc => ?_, ih hp'.2⟩
          rcases mem_memWrite hc with ⟨rfl, _⟩ | hc
          · simp only; omega
          · exact hp'.1 c hc
  · rcases mem_memWrite hc with ⟨rfl, h0⟩ | hc
    · exact h0
    · exact h.2 c hc

/-- The memory after `DL.NEW`: no cell is listed. -/
theorem fresh_store_wf (n m : Index) : Memory.wf (freshDelayLine n m).store := by
  simp [Memory.wf]

/-- Reset memory has the form: there is none before `DL.NEW` (R22, log 2). -/
theorem reset_store_wf : ∀ d ∈ State.reset.dl, Memory.wf d.store := by
  simp [State.reset, State.resetOf]

/-- `storeWord` keeps the canonical form. -/
theorem storeWord_wf {d d' : DelayLine} {a : Int} {v : Sample} (h : storeWord d a v = some d')
    (hw : Memory.wf d.store) : Memory.wf d'.store := by
  unfold storeWord at h
  split at h
  · cases h; exact memWrite_wf hw
  · cases h

end Sys2Proof.Machine
end

