-- ==== Sys2Proof/Laws/Numerics.lean ====
section
/-! SUPPORT. The fields and the value of a packed word, and that every operation of `Numerics` answers a `T` word. -/

namespace Sys2Proof.Machine

variable (fl : Flen)

/-! ### The format's numbers -/

theorem flenBits_eq : flenBits fl = expBits fl + fracBits fl + 1 := by cases fl <;> rfl

theorem expTop_eq : expTop fl = 2 * emax fl + 1 := by cases fl <;> rfl

theorem two_pow_expBits : 2 ^ expBits fl = expTop fl + 1 := by cases fl <;> rfl

theorem unitExp_eq : unitExp fl + 1 = fracBits fl + emax fl := by cases fl <;> rfl

theorem emax_pos : 0 < emax fl := by cases fl <;> decide

theorem fracBits_lt_unitExp : fracBits fl < unitExp fl := by cases fl <;> decide

theorem oneUnits_pos : 0 < oneUnits fl := Nat.two_pow_pos _

/-- The exponent and fraction fields together lie below the sign bit. -/
theorem body_room : (expTop fl + 1) * 2 ^ fracBits fl = 2 ^ (flenBits fl - 1) := by
  rw [← two_pow_expBits, ← pow_add, flenBits_eq, Nat.add_sub_cancel]

theorem flenBits_le : flenBits fl ≤ 64 := by cases fl <;> decide

/-! ### The fields of a packed word -/

variable {fl}
variable {sign : Bool} {body : Nat}

theorem packWord_toNat (h : body < 2 ^ (flenBits fl - 1)) :
    (packWord fl sign body).toNat = (if sign then 2 ^ (flenBits fl - 1) else 0) + body := by
  have hp : 2 ^ (flenBits fl - 1) + 2 ^ (flenBits fl - 1) ≤ 2 ^ 64 := by cases fl <;> decide
  rw [packWord, BitVec.toNat_ofNat, Nat.mod_eq_of_lt]
  split <;> omega

theorem packWord_fits (h : body < 2 ^ (flenBits fl - 1)) : fl.fits (packWord fl sign body) := by
  cases fl
  · right
    rw [packWord_toNat h]
    have h' : body < 2 ^ 31 := h
    show (if sign then 2 ^ 31 else 0) + body < 2 ^ 32
    split <;> omega
  · left; rfl

theorem fracField_packWord (h : body < 2 ^ (flenBits fl - 1)) :
    fracField fl (packWord fl sign body) = body % 2 ^ fracBits fl := by
  rw [fracField, packWord_toNat h]
  split
  · rw [← body_room, Nat.mul_comm, Nat.mul_add_mod]
  · simp

theorem expField_packWord (h : body < 2 ^ (flenBits fl - 1)) :
    expField fl (packWord fl sign body) = body / 2 ^ fracBits fl := by
  have hb : body / 2 ^ fracBits fl < 2 ^ expBits fl := by
    rw [Nat.div_lt_iff_lt_mul (Nat.two_pow_pos _), two_pow_expBits, body_room]; exact h
  rw [expField, packWord_toNat h]
  split
  · rw [← body_room, ← two_pow_expBits, Nat.mul_comm, Nat.mul_add_div (Nat.two_pow_pos _), Nat.add_mod_left,
      Nat.mod_eq_of_lt hb]
  · rw [Nat.zero_add, Nat.mod_eq_of_lt hb]

theorem signBit_packWord (h : body < 2 ^ (flenBits fl - 1)) : signBit fl (packWord fl sign body) = sign := by
  rw [signBit, BitVec.getLsbD, packWord_toNat h, Nat.testBit_eq_decide_div_mod_eq]
  have hp := Nat.two_pow_pos (flenBits fl - 1)
  cases sign
  · simp [Nat.div_eq_of_lt h]
  · have : (2 ^ (flenBits fl - 1) + body) / 2 ^ (flenBits fl - 1) = 1 := by
      rw [Nat.add_div_left _ hp, Nat.div_eq_of_lt h]
    simp [this]

/-! ### The magnitude of a packed word -/

/-- What the fields of `encodeMag` are bounded by: a finite magnitude gives a finite word. -/
theorem encodeMag_lt {m : Nat} (h : m < 2 ^ (emax fl + 1) * oneUnits fl) :
    encodeMag fl m < expTop fl * 2 ^ fracBits fl := by
  unfold encodeMag
  simp only
  rcases Nat.eq_zero_or_pos m with rfl | hm
  · simp only [Nat.log2_zero, Nat.zero_sub, Nat.zero_mul, Nat.zero_div, Nat.add_zero]
    exact Nat.mul_pos (by rw [expTop_eq]; omega) (Nat.two_pow_pos _)
  · have hm0 : m ≠ 0 := by omega
    have h1 : m < 2 ^ (Nat.log2 m + 1) := Nat.lt_log2_self
    have h2 : Nat.log2 m < emax fl + 1 + unitExp fl := by
      rw [Nat.log2_lt hm0, pow_add]; exact h
    have h3 : m / 2 ^ (Nat.log2 m - fracBits fl) < 2 ^ (fracBits fl + 1) := by
      rw [Nat.div_lt_iff_lt_mul (Nat.two_pow_pos _), ← pow_add]
      exact h1.trans_le (Nat.pow_le_pow_right (by omega) (by omega))
    have h4 := unitExp_eq fl
    have h5 : Nat.log2 m - fracBits fl + 2 ≤ expTop fl := by rw [expTop_eq]; have := emax_pos fl; omega
    calc _ < (Nat.log2 m - fracBits fl) * 2 ^ fracBits fl + 2 ^ (fracBits fl + 1) := by omega
      _ = (Nat.log2 m - fracBits fl + 2) * 2 ^ fracBits fl := by ring
      _ ≤ _ := Nat.mul_le_mul_right _ h5

theorem encodeMag_lt_sign {m : Nat} (h : m < 2 ^ (emax fl + 1) * oneUnits fl) :
    encodeMag fl m < 2 ^ (flenBits fl - 1) := by
  refine (encodeMag_lt h).trans_le ?_
  rw [← body_room]
  exact Nat.mul_le_mul_right _ (by omega)

/-- A magnitude of at most `t + 1` significant bits is the magnitude of its encoding. -/
theorem magUnits_encodeMag {m : Nat} (h : m < 2 ^ (emax fl + 1) * oneUnits fl)
    (hd : 2 ^ (Nat.log2 m - fracBits fl) ∣ m) : magUnits fl (packWord fl sign (encodeMag fl m)) = m := by
  have hs := encodeMag_lt_sign h
  rw [magUnits, expField_packWord hs, fracField_packWord hs]
  have ht := Nat.two_pow_pos (fracBits fl)
  rcases Nat.lt_or_ge (Nat.log2 m) (fracBits fl + 1) with hl | hl
  · have he : encodeMag fl m = m := by simp [encodeMag, Nat.sub_eq_zero_of_le (Nat.lt_succ_iff.mp hl)]
    rw [he]
    have hm : m < 2 * 2 ^ fracBits fl := by
      rcases Nat.eq_zero_or_pos m with rfl | hm
      · omega
      · have := (Nat.log2_lt (by omega : m ≠ 0)).mp hl; rw [pow_succ] at this; omega
    rcases Nat.lt_or_ge m (2 ^ fracBits fl) with hlt | hge
    · simp [Nat.div_eq_of_lt hlt, Nat.mod_eq_of_lt hlt]
    · have h1 : m / 2 ^ fracBits fl = 1 := Nat.div_eq_of_lt_le (by omega) (by omega)
      have h2 : m % 2 ^ fracBits fl = m - 2 ^ fracBits fl := by
        rw [Nat.mod_eq_sub_mod hge, Nat.mod_eq_of_lt (by omega)]
      simp [h1, h2]; omega
  · have hm0 : m ≠ 0 := by rintro rfl; simp at hl
    obtain ⟨e, he⟩ : ∃ e, Nat.log2 m = fracBits fl + e := ⟨Nat.log2 m - fracBits fl, by omega⟩
    have hee : Nat.log2 m - fracBits fl = e := by omega
    rw [hee] at hd
    obtain ⟨q, hq⟩ := hd
    have hlo : 2 ^ (fracBits fl + e) ≤ m := by rw [← he]; exact Nat.log2_self_le hm0
    have hhi : m < 2 ^ (fracBits fl + e + 1) := by rw [← he]; exact Nat.lt_log2_self
    have hpe := Nat.two_pow_pos e
    have hq1 : 2 ^ fracBits fl ≤ q := by
      rw [pow_add, Nat.mul_comm, hq] at hlo; exact Nat.le_of_mul_le_mul_left hlo hpe
    have hq2 : q < 2 * 2 ^ fracBits fl := by
      have hx : 2 ^ (fracBits fl + e + 1) = 2 ^ e * (2 * 2 ^ fracBits fl) := by ring
      rw [hx, hq] at hhi; exact Nat.lt_of_mul_lt_mul_left hhi
    have hb : encodeMag fl m = (e + 1) * 2 ^ fracBits fl + (q - 2 ^ fracBits fl) := by
      simp only [encodeMag, hee]
      rw [hq, Nat.mul_div_cancel_left _ hpe, Nat.add_mul]; omega
    have hr : q - 2 ^ fracBits fl < 2 ^ fracBits fl := by omega
    have h1 : encodeMag fl m / 2 ^ fracBits fl = e + 1 := by
      rw [hb, Nat.mul_comm, Nat.mul_add_div ht, Nat.div_eq_of_lt hr, Nat.add_zero]
    have h2 : encodeMag fl m % 2 ^ fracBits fl = q - 2 ^ fracBits fl := by
      rw [hb, Nat.mul_comm, Nat.mul_add_mod, Nat.mod_eq_of_lt hr]
    rw [h1, h2, if_neg (by omega), Nat.add_sub_cancel' hq1, Nat.add_sub_cancel, hq, Nat.mul_comm]

/-- The word of a finite magnitude is finite. -/
theorem isFinite_encodeMag {m : Nat} (h : m < 2 ^ (emax fl + 1) * oneUnits fl) :
    isFinite fl (packWord fl sign (encodeMag fl m)) = true := by
  rw [isFinite, expField_packWord (encodeMag_lt_sign h), decide_eq_true_eq,
    Nat.div_lt_iff_lt_mul (Nat.two_pow_pos _)]
  exact encodeMag_lt h

/-! ### The magnitude of any word -/

theorem fracField_lt (x : Sample) : fracField fl x < 2 ^ fracBits fl := Nat.mod_lt _ (Nat.two_pow_pos _)

theorem expField_le (x : Sample) : expField fl x ≤ expTop fl := by
  have : expField fl x < 2 ^ expBits fl := Nat.mod_lt _ (Nat.two_pow_pos _)
  rw [two_pow_expBits] at this; omega

/-- A magnitude is a number of at most `t + 1` bits times a power of two. -/
theorem magUnits_form (x : Sample) : ∃ q, q < 2 ^ (fracBits fl + 1) ∧ magUnits fl x = q * 2 ^ (expField fl x - 1) := by
  have hf := fracField_lt (fl := fl) x
  unfold magUnits
  split
  · rename_i h
    refine ⟨fracField fl x, ?_, by simp [h]⟩
    rw [pow_succ]; omega
  · refine ⟨2 ^ fracBits fl + fracField fl x, ?_, rfl⟩
    rw [pow_succ]; omega

/-- The magnitude of a finite word is below `2^(emax+1)`. -/
theorem magUnits_lt {x : Sample} (h : isFinite fl x = true) : magUnits fl x < 2 ^ (emax fl + 1) * oneUnits fl := by
  simp only [isFinite, decide_eq_true_eq] at h
  obtain ⟨q, hq, hm⟩ := magUnits_form (fl := fl) x
  have h4 := unitExp_eq fl
  rw [expTop_eq] at h
  have h5 := emax_pos fl
  rw [hm]
  calc q * 2 ^ (expField fl x - 1) < 2 ^ (fracBits fl + 1) * 2 ^ (expField fl x - 1) :=
        Nat.mul_lt_mul_of_pos_right hq (Nat.two_pow_pos _)
    _ = 2 ^ (fracBits fl + 1 + (expField fl x - 1)) := (pow_add _ _ _).symm
    _ ≤ 2 ^ (emax fl + 1 + unitExp fl) := Nat.pow_le_pow_right (by omega) (by omega)
    _ = _ := by rw [pow_add]; rfl

theorem natAbs_valUnits (x : Sample) : (valUnits fl x).natAbs = magUnits fl x := by
  unfold valUnits; split <;> simp

/-- A product of a short number and a power of two is divisible as `magUnits_encodeMag` asks. -/
theorem log2_pow_dvd {q e : Nat} (hq : q < 2 ^ (fracBits fl + 1)) :
    2 ^ (Nat.log2 (q * 2 ^ e) - fracBits fl) ∣ q * 2 ^ e := by
  rcases Nat.eq_zero_or_pos q with rfl | hq0
  · simp
  · have h0 : q * 2 ^ e ≠ 0 := (Nat.mul_pos hq0 (Nat.two_pow_pos e)).ne'
    have : Nat.log2 (q * 2 ^ e) < fracBits fl + 1 + e := by
      rw [Nat.log2_lt h0, pow_add]; exact Nat.mul_lt_mul_of_pos_right hq (Nat.two_pow_pos _)
    exact Dvd.dvd.mul_left (pow_dvd_pow 2 (by omega)) q

/-! ### Every operation answers a `T` word -/

theorem zeroT_fits : fl.fits zeroT := by right; decide

theorem cnanT_fits : fl.fits (cnanT fl) := by
  cases fl
  · right; decide
  · left; rfl

theorem zeroOf_fits : fl.fits (zeroOf fl sign) := packWord_fits (Nat.two_pow_pos _)

theorem infOf_fits : fl.fits (infOf fl sign) := by
  refine packWord_fits ?_
  rw [← body_room]
  exact Nat.mul_lt_mul_of_pos_right (by omega) (Nat.two_pow_pos _)

theorem roundT_fits {num den : Nat} : fl.fits (roundT fl sign num den) := by
  unfold roundT
  simp only
  split
  · exact infOf_fits
  · exact packWord_fits (encodeMag_lt_sign (by omega))

theorem fneg_fits {x : Sample} (h : fl.fits x) : fl.fits (fneg fl x) := by
  cases fl
  · rcases h with h | h
    · cases h
    · right
      have h1 : (fneg .f32 x).toNat = x.toNat ^^^ 2 ^ 31 := by
        simp [fneg, flenBits]
      rw [h1]
      exact Nat.xor_lt_two_pow h (by decide)
  · left; rfl

theorem fadd_fits {a b : Sample} (ha : fl.fits a) (hb : fl.fits b) : fl.fits (fadd fl a b) := by
  unfold fadd
  simp only
  split
  · exact cnanT_fits
  split
  · exact cnanT_fits
  split
  · exact ha
  split
  · exact hb
  split
  · exact zeroOf_fits
  split
  · exact zeroOf_fits
  · exact roundT_fits

theorem fsub_fits {a b : Sample} (ha : fl.fits a) (hb : fl.fits b) : fl.fits (fsub fl a b) :=
  fadd_fits ha (fneg_fits hb)

theorem fmul_fits {a b : Sample} : fl.fits (fmul fl a b) := by
  unfold fmul
  simp only
  split
  · exact cnanT_fits
  split
  · exact cnanT_fits
  split
  · exact infOf_fits
  split
  · exact zeroOf_fits
  · exact roundT_fits

theorem fdiv_fits {a b : Sample} : fl.fits (fdiv fl a b) := by
  unfold fdiv
  simp only
  split
  · exact cnanT_fits
  split
  · exact cnanT_fits
  split
  · exact infOf_fits
  split
  · exact zeroOf_fits
  split
  · exact infOf_fits
  split
  · exact zeroOf_fits
  · exact roundT_fits

/-! ### The floor -/

/-- The floor of a finite value is a whole number that a word of the format has. -/
theorem floorInt_form {x : Sample} (h : isFinite fl x = true) :
    (floorInt fl x).natAbs * oneUnits fl < 2 ^ (emax fl + 1) * oneUnits fl ∧
    2 ^ (Nat.log2 ((floorInt fl x).natAbs * oneUnits fl) - fracBits fl) ∣ (floorInt fl x).natAbs * oneUnits fl := by
  obtain ⟨q, hq, hm⟩ := magUnits_form (fl := fl) x
  have hone : (0 : Int) < (oneUnits fl : Int) := by exact_mod_cast oneUnits_pos fl
  rcases Nat.lt_or_ge (expField fl x - 1) (unitExp fl) with he | he
  · have hle : magUnits fl x ≤ q * oneUnits fl := by
      rw [hm]; exact Nat.mul_le_mul_left _ (Nat.pow_le_pow_right (by omega) he.le)
    have hz : (magUnits fl x : Int) ≤ q * oneUnits fl := by exact_mod_cast hle
    have hv1 : valUnits fl x ≤ q * oneUnits fl := by unfold valUnits; split <;> omega
    have hv2 : -((q : Int)) * oneUnits fl ≤ valUnits fl x := by
      rw [Int.neg_mul]; unfold valUnits; split <;> omega
    have h1 : floorInt fl x ≤ q := by
      have := Int.ediv_le_ediv hone hv1
      rwa [Int.mul_ediv_cancel _ hone.ne'] at this
    have h2 : -(q : Int) ≤ floorInt fl x := Int.le_ediv_of_mul_le hone hv2
    have h3 : (floorInt fl x).natAbs < 2 ^ (fracBits fl + 1) := by omega
    refine ⟨Nat.mul_lt_mul_of_pos_right (h3.trans_le ?_) (oneUnits_pos fl), log2_pow_dvd h3⟩
    cases fl <;> exact Nat.pow_le_pow_right (by omega) (by decide)
  · have hd : (oneUnits fl : Int) ∣ valUnits fl x := by
      rw [← Int.dvd_natAbs, natAbs_valUnits, hm]
      exact_mod_cast Dvd.dvd.mul_left (pow_dvd_pow 2 he) q
    have hn : (floorInt fl x).natAbs * oneUnits fl = magUnits fl x := by
      have := congrArg Int.natAbs (Int.ediv_mul_cancel hd)
      rw [Int.natAbs_mul, natAbs_valUnits, Int.natAbs_natCast] at this
      exact this
    rw [hn]
    exact ⟨magUnits_lt h, by rw [hm]; exact log2_pow_dvd hq⟩

theorem fisnan_of_isFinite {x : Sample} (h : isFinite fl x = true) : fisnan fl x = false := by
  simp only [isFinite, decide_eq_true_eq] at h
  simp [fisnan, Nat.ne_of_lt h]

theorem fisinf_of_isFinite {x : Sample} (h : isFinite fl x = true) : fisinf fl x = false := by
  simp only [isFinite, decide_eq_true_eq] at h
  simp [fisinf, Nat.ne_of_lt h]

theorem magUnits_of_fiszero {x : Sample} (h : fiszero fl x = true) : magUnits fl x = 0 := by
  simp only [fiszero, Bool.and_eq_true, beq_iff_eq] at h
  simp [magUnits, h.1, h.2]

theorem valUnits_of_fiszero {x : Sample} (h : fiszero fl x = true) : valUnits fl x = 0 := by
  simp [valUnits, magUnits_of_fiszero h]

theorem zeroT_eq : zeroT = zeroOf fl false := by cases fl <;> rfl

/-- The floor of a finite word is the finite word of the floor of its value. -/
theorem ffloor_spec {x : Sample} (h : isFinite fl x = true) :
    isFinite fl (ffloor fl x) = true ∧ valUnits fl (ffloor fl x) = floorInt fl x * oneUnits fl := by
  unfold ffloor
  rw [fisnan_of_isFinite h, fisinf_of_isFinite h]
  simp only [Bool.false_eq_true, if_false, Bool.false_or]
  split
  · rename_i hz
    refine ⟨h, ?_⟩
    simp [floorInt, valUnits_of_fiszero hz]
  · obtain ⟨h1, h2⟩ := floorInt_form h
    split
    · rename_i hn
      rw [hn, zeroT_eq]
      have h0 : fiszero fl (zeroOf fl false) = true := by cases fl <;> rfl
      rw [valUnits_of_fiszero h0]
      exact ⟨by cases fl <;> rfl, by simp⟩
    · rename_i hn
      refine ⟨isFinite_encodeMag h1, ?_⟩
      rw [valUnits, signBit_packWord (encodeMag_lt_sign h1), magUnits_encodeMag h1 h2]
      have hmul : (((floorInt fl x).natAbs * oneUnits fl : Nat) : Int) = ((floorInt fl x).natAbs : Int) * oneUnits fl :=
        Int.natCast_mul _ _
      rw [hmul]
      generalize (oneUnits fl : Int) = u
      split
      · rename_i hs
        simp only [decide_eq_true_eq] at hs
        rw [← Int.neg_mul]; congr 1; omega
      · rename_i hs
        simp only [decide_eq_true_eq] at hs
        congr 1; omega

theorem ffloor_fits {x : Sample} (hx : fl.fits x) : fl.fits (ffloor fl x) := by
  by_cases hf : isFinite fl x = true
  · unfold ffloor
    simp only
    split
    · exact cnanT_fits
    split
    · exact hx
    split
    · exact zeroT_fits
    · exact packWord_fits (encodeMag_lt_sign (floorInt_form hf).1)
  · unfold ffloor
    simp only
    split
    · exact cnanT_fits
    · rename_i hn
      have : fisinf fl x = true := by
        have h1 := expField_le (fl := fl) x
        simp only [isFinite, decide_eq_true_eq] at hf
        have h2 : expField fl x = expTop fl := by omega
        simp only [fisnan, h2, beq_self_eq_true, Bool.true_and, bne_iff_ne, ne_eq, not_not] at hn
        simp [fisinf, h2, hn]
      simp only [this, Bool.true_or, if_true]
      exact hx

/-- After the checks of R142 the conversion of the floor is in its domain. -/
theorem f2idx_ffloor {x : Sample} (h : isFinite fl x = true) (h0 : 0 ≤ floorInt fl x) (h1 : floorInt fl x ≤ 2 ^ 32 - 1) :
    f2idx fl (ffloor fl x) = some (floorInt fl x).toNat := by
  obtain ⟨hf, hv⟩ := ffloor_spec h
  have hone : (oneUnits fl : Int) ≠ 0 := by have := oneUnits_pos fl; omega
  have hfl : floorInt fl (ffloor fl x) = floorInt fl x := by
    rw [floorInt, hv, Int.mul_ediv_cancel _ hone]
  unfold f2idx
  rw [hf, hfl, hv]
  simp only [Int.mul_emod_left, beq_self_eq_true, Bool.and_self, Bool.true_and, Bool.and_eq_true, decide_eq_true_eq]
  rw [if_pos ⟨h0, h1⟩]

end Sys2Proof.Machine
end

