-- ==== Sys2Proof/Laws/Ops.lean ====
section
/-! SUPPORT. For each shared operation, and for each command, the one lemma that says everything it can answer. -/

namespace Sys2Proof.Machine

variable {s t : State}

theorem raise_next {c : Cause} {v : BitVec 64} : raise c v s = .next t ↔ t = faulted c v s := by
  simp only [raise, Host.Outcome.next.injEq]; exact eq_comm

theorem complete_next {v : BitVec 64} : complete v s = .next t ↔ t = respond statusOk v s := by
  simp only [complete, Host.Outcome.next.injEq]; exact eq_comm

theorem discardCommand_next : discardCommand s = .next t ↔ t = respond statusHalted 0#64 s := by
  simp only [discardCommand, Host.Outcome.next.injEq]; exact eq_comm

theorem unlessHalted_next {k : Result} :
    unlessHalted s k = .next t ↔
      (s.halt.isSome = true ∧ t = respond statusHalted 0#64 s) ∨ (s.halt = none ∧ k = .next t) := by
  unfold unlessHalted
  cases h : s.halt <;> simp [discardCommand_next]

theorem withDelayLine_next {op : Opcode} {k : DelayLine → Result} :
    withDelayLine op s k = .next t ↔
      (s.dl = none ∧ t = faulted .notConstructed (op.setWidth 64) s) ∨ ∃ d, s.dl = some d ∧ k d = .next t := by
  unfold withDelayLine
  cases h : s.dl <;> simp [raise_next]

theorem withOscillator_next {op : Opcode} {k : Oscillator → Result} :
    withOscillator op s k = .next t ↔
      (s.lfo = none ∧ t = faulted .notConstructed (op.setWidth 64) s) ∨ ∃ o, s.lfo = some o ∧ k o = .next t := by
  unfold withOscillator
  cases h : s.lfo <;> simp [raise_next]

theorem withChannel_next {ch : Index} {d : DelayLine} {k : Index → Result} :
    withChannel ch d s k = .next t ↔
      (d.dlm.toNat ≤ ch.toNat ∧ t = faulted .channelOutOfRange (ch.setWidth 64) s) ∨
      (ch.toNat < d.dlm.toNat ∧ ∃ cur, d.wcur[ch.toNat]? = some cur ∧ k cur = .next t) := by
  unfold withChannel
  split
  · rename_i h
    cases hc : d.wcur[ch.toNat]? <;> simp [h, Nat.not_le.mpr h]
  · rename_i h
    simp [raise_next, h, Nat.not_lt.mp h]

theorem withWord_next {v : Option Sample} {k : Sample → Result} :
    withWord v k = .next t ↔ ∃ x, v = some x ∧ k x = .next t := by
  cases v <;> simp [withWord]

theorem withStored_next {v : Option DelayLine} {k : DelayLine → Result} :
    withStored v k = .next t ↔ ∃ d, v = some d ∧ k d = .next t := by
  cases v <;> simp [withStored]

theorem withIndex_next {v : Option Nat} {k : Nat → Result} :
    withIndex v k = .next t ↔ ∃ i, v = some i ∧ k i = .next t := by
  cases v <;> simp [withIndex]

theorem if_next {c : Prop} [Decidable c] {a b : Result} :
    (if c then a else b) = .next t ↔ (c ∧ a = .next t) ∨ (¬ c ∧ b = .next t) := by
  split <;> simp_all

theorem loadWord_some {d : DelayLine} {a : Int} {x : Sample} :
    loadWord d a = some x ↔ (0 ≤ a ∧ a < (storeWords d : Int)) ∧ x = memRead d.store a.toNat := by
  unfold loadWord
  split <;> simp_all [eq_comm]

theorem storeWord_some {d d' : DelayLine} {a : Int} {x : Sample} :
    storeWord d a x = some d' ↔
      (0 ≤ a ∧ a < (storeWords d : Int)) ∧ d' = { d with store := memWrite d.store a.toNat x } := by
  unfold storeWord
  split <;> simp_all [eq_comm]

/-- Everything `DL.NEW` can answer. -/
theorem execDlNew_next {n m : Index} : execDlNew n m s = .next t ↔
    (s.halt.isSome = true ∧ t = respond statusHalted 0#64 s) ∨ (s.halt = none ∧
      ((s.dl.isSome = true ∧ t = faulted .alreadyConstructed 0x10#64 s) ∨
       (s.dl = none ∧ n = 0#32 ∧ t = faulted .zeroCapacity 0#64 s) ∨
       (s.dl = none ∧ n ≠ 0#32 ∧ (s.cfg.maxch < m.toNat ∨ s.cfg.depth < n.toNat * m.toNat) ∧
          t = faulted .allocationFailure (m ++ n) s) ∨
       (s.dl = none ∧ n ≠ 0#32 ∧ m.toNat ≤ s.cfg.maxch ∧ n.toNat * m.toNat ≤ s.cfg.depth ∧
          t = respond statusOk 0#64 { s with dl := some (freshDelayLine n m) }))) := by
  unfold execDlNew
  rw [unlessHalted_next]
  cases hd : s.dl with
  | some d => simp [raise_next]
  | none =>
    by_cases hn : n = 0#32
    · simp [hn, raise_next]
    · by_cases hc : s.cfg.maxch < m.toNat ∨ s.cfg.depth < n.toNat * m.toNat
      · have h : m.toNat ≤ s.cfg.maxch → ¬ n.toNat * m.toNat ≤ s.cfg.depth := by omega
        simp [hn, hc, raise_next]
        tauto
      · have h : m.toNat ≤ s.cfg.maxch ∧ n.toNat * m.toNat ≤ s.cfg.depth := by omega
        simp [complete_next, hn, h.1, h.2, hc]

/-- Everything `DL.WRITE` can answer. -/
theorem execDlWrite_next {ch : Index} {x : Sample} : execDlWrite ch x s = .next t ↔
    (s.halt.isSome = true ∧ t = respond statusHalted 0#64 s) ∨ (s.halt = none ∧
      ((s.dl = none ∧ t = faulted .notConstructed 0x11#64 s) ∨ ∃ d, s.dl = some d ∧
        ((d.dlm.toNat ≤ ch.toNat ∧ t = faulted .channelOutOfRange (ch.setWidth 64) s) ∨
         (ch.toNat < d.dlm.toNat ∧ ∃ cur, d.wcur[ch.toNat]? = some cur ∧
            ∃ d', storeWord d (slotAddress d ch cur.toNat) x = some d' ∧
              t = respond statusOk 0#64 { s with dl := some (setCursor d' ch (nextCursor d cur)) })))) := by
  unfold execDlWrite
  rw [unlessHalted_next, withDelayLine_next]
  simp only [withChannel_next, withStored_next, complete_next]
  rfl

/-- Everything `DL.READ` can answer. -/
theorem execDlRead_next {ch delay : Index} : execDlRead ch delay s = .next t ↔
    (s.halt.isSome = true ∧ t = respond statusHalted 0#64 s) ∨ (s.halt = none ∧
      ((s.dl = none ∧ t = faulted .notConstructed 0x12#64 s) ∨ ∃ d, s.dl = some d ∧
        ((d.dlm.toNat ≤ ch.toNat ∧ t = faulted .channelOutOfRange (ch.setWidth 64) s) ∨
         (ch.toNat < d.dlm.toNat ∧ ∃ cur, d.wcur[ch.toNat]? = some cur ∧
            ∃ y, dlRead d ch cur delay.toNat = some y ∧ t = respond statusOk y s)))) := by
  unfold execDlRead
  rw [unlessHalted_next, withDelayLine_next]
  simp only [withChannel_next, withWord_next, complete_next]
  rfl

/-- Everything `DL.READI` can answer. -/
theorem execDlReadi_next {ch : Index} {x : Sample} : execDlReadi ch x s = .next t ↔
    (s.halt.isSome = true ∧ t = respond statusHalted 0#64 s) ∨ (s.halt = none ∧
      ((s.dl = none ∧ t = faulted .notConstructed 0x13#64 s) ∨ ∃ d, s.dl = some d ∧
        ((d.dlm.toNat ≤ ch.toNat ∧ t = faulted .channelOutOfRange (ch.setWidth 64) s) ∨
         (ch.toNat < d.dlm.toNat ∧ ∃ cur, d.wcur[ch.toNat]? = some cur ∧
            ((invalidDelay s.cfg.flen x = true ∧ t = faulted .invalidDelay x s) ∨
             (invalidDelay s.cfg.flen x = false ∧ ∃ i, f2idx s.cfg.flen (ffloor s.cfg.flen x) = some i ∧
                ∃ y1, dlRead d ch cur i = some y1 ∧ ∃ y2, dlRead d ch cur (i + 1) = some y2 ∧
                  t = respond statusOk
                    (interpolate s.cfg.flen y1 y2 (fsub s.cfg.flen x (ffloor s.cfg.flen x))) s)))))) := by
  unfold execDlReadi
  rw [unlessHalted_next, withDelayLine_next]
  simp only [withChannel_next, if_next, raise_next, withIndex_next, withWord_next, complete_next, Bool.not_eq_true]
  rfl

/-- Everything `LFO.NEW` can answer. -/
theorem execLfoNew_next {f sr : Sample} : execLfoNew f sr s = .next t ↔
    (s.halt.isSome = true ∧ t = respond statusHalted 0#64 s) ∨ (s.halt = none ∧
      ((s.lfo.isSome = true ∧ t = faulted .alreadyConstructed 0x20#64 s) ∨
       (s.lfo = none ∧ fgt s.cfg.flen sr zeroT = false ∧ t = faulted .badSampleRate sr s) ∨
       (s.lfo = none ∧ fgt s.cfg.flen sr zeroT = true ∧
          t = respond statusOk 0#64
            { s with lfo := some { freq := f, srate := sr, phase := zeroT, inc := fdiv s.cfg.flen f sr } }))) := by
  unfold execLfoNew
  rw [unlessHalted_next]
  cases hl : s.lfo <;> cases hg : fgt s.cfg.flen sr zeroT <;> simp [raise_next, complete_next]

/-- Everything `LFO.SETF` can answer. -/
theorem execLfoSetf_next {f : Sample} : execLfoSetf f s = .next t ↔
    (s.halt.isSome = true ∧ t = respond statusHalted 0#64 s) ∨ (s.halt = none ∧
      ((s.lfo = none ∧ t = faulted .notConstructed 0x21#64 s) ∨ ∃ o, s.lfo = some o ∧
        t = respond statusOk 0#64 { s with lfo := some { o with freq := f, inc := fdiv s.cfg.flen f o.srate } })) := by
  unfold execLfoSetf
  rw [unlessHalted_next, withOscillator_next]
  simp only [complete_next]
  rfl

/-- Everything `LFO.NEXT` can answer. -/
theorem execLfoNext_next : execLfoNext s = .next t ↔
    (s.halt.isSome = true ∧ t = respond statusHalted 0#64 s) ∨ (s.halt = none ∧
      ((s.lfo = none ∧ t = faulted .notConstructed 0x22#64 s) ∨ ∃ o, s.lfo = some o ∧
        t = respond statusOk (fsin s.cfg.sine s.cfg.flen (phaseAngle s.cfg.flen (nextPhase s.cfg o)))
          { s with lfo := some { o with phase := nextPhase s.cfg o } })) := by
  unfold execLfoNext
  rw [unlessHalted_next, withOscillator_next]
  simp only [complete_next]
  rfl

/-- Everything the port does with one command word. -/
theorem acceptWord_next {w : CommandWord} : acceptWord w s = .next t ↔
    (s.halt.isSome = true ∧ t = respond statusHalted 0#64 s) ∨ (s.halt = none ∧
      ((∃ e, decode s.cfg.flen w = .error e ∧ t = faulted .illegalCommand ((opField w).setWidth 64) s) ∨
       ∃ i, decode s.cfg.flen w = .ok i ∧ exec i s = .next t)) := by
  unfold acceptWord
  cases hh : s.halt with
  | some f => simp [discardCommand_next]
  | none => cases hd : decode s.cfg.flen w <;> simp [raise_next]

/-- How a command can end: discarded by a halted block, faulted, or completed with its writes to the two units. -/
theorem exec_outcome {i : Instr} (h : exec i s = .next t) :
    (s.halt.isSome = true ∧ t = respond statusHalted 0#64 s) ∨
    (s.halt = none ∧ ((∃ c v, t = faulted c v s) ∨ ∃ d o v, t = respond statusOk v { s with dl := d, lfo := o })) := by
  cases i with
  | dlNew n m =>
    rcases execDlNew_next.mp h with h | ⟨h0, ⟨-, rfl⟩ | ⟨-, -, rfl⟩ | ⟨-, -, -, rfl⟩ | ⟨-, -, -, -, rfl⟩⟩
    exacts [.inl h, .inr ⟨h0, .inl ⟨_, _, rfl⟩⟩, .inr ⟨h0, .inl ⟨_, _, rfl⟩⟩, .inr ⟨h0, .inl ⟨_, _, rfl⟩⟩,
      .inr ⟨h0, .inr ⟨_, _, _, rfl⟩⟩]
  | dlWrite ch x =>
    rcases execDlWrite_next.mp h with h | ⟨h0, ⟨-, rfl⟩ | ⟨_, -, ⟨-, rfl⟩ | ⟨-, _, -, _, -, rfl⟩⟩⟩
    exacts [.inl h, .inr ⟨h0, .inl ⟨_, _, rfl⟩⟩, .inr ⟨h0, .inl ⟨_, _, rfl⟩⟩, .inr ⟨h0, .inr ⟨_, _, _, rfl⟩⟩]
  | dlRead ch k =>
    rcases execDlRead_next.mp h with h | ⟨h0, ⟨-, rfl⟩ | ⟨_, -, ⟨-, rfl⟩ | ⟨-, _, -, _, -, rfl⟩⟩⟩
    exacts [.inl h, .inr ⟨h0, .inl ⟨_, _, rfl⟩⟩, .inr ⟨h0, .inl ⟨_, _, rfl⟩⟩, .inr ⟨h0, .inr ⟨s.dl, s.lfo, _, rfl⟩⟩]
  | dlReadi ch x =>
    rcases execDlReadi_next.mp h with
      h | ⟨h0, ⟨-, rfl⟩ | ⟨_, -, ⟨-, rfl⟩ | ⟨-, _, -, ⟨-, rfl⟩ | ⟨-, _, -, _, -, _, -, rfl⟩⟩⟩⟩
    exacts [.inl h, .inr ⟨h0, .inl ⟨_, _, rfl⟩⟩, .inr ⟨h0, .inl ⟨_, _, rfl⟩⟩, .inr ⟨h0, .inl ⟨_, _, rfl⟩⟩,
      .inr ⟨h0, .inr ⟨s.dl, s.lfo, _, rfl⟩⟩]
  | lfoNew f sr =>
    rcases execLfoNew_next.mp h with h | ⟨h0, ⟨-, rfl⟩ | ⟨-, -, rfl⟩ | ⟨-, -, rfl⟩⟩
    exacts [.inl h, .inr ⟨h0, .inl ⟨_, _, rfl⟩⟩, .inr ⟨h0, .inl ⟨_, _, rfl⟩⟩, .inr ⟨h0, .inr ⟨_, _, _, rfl⟩⟩]
  | lfoSetf f =>
    rcases execLfoSetf_next.mp h with h | ⟨h0, ⟨-, rfl⟩ | ⟨_, -, rfl⟩⟩
    exacts [.inl h, .inr ⟨h0, .inl ⟨_, _, rfl⟩⟩, .inr ⟨h0, .inr ⟨_, _, _, rfl⟩⟩]
  | lfoNext =>
    rcases execLfoNext_next.mp h with h | ⟨h0, ⟨-, rfl⟩ | ⟨_, -, rfl⟩⟩
    exacts [.inl h, .inr ⟨h0, .inl ⟨_, _, rfl⟩⟩, .inr ⟨h0, .inr ⟨_, _, _, rfl⟩⟩]

/-- The same of one accepted command word, legal or not. -/
theorem acceptWord_outcome {w : CommandWord} (h : acceptWord w s = .next t) :
    (s.halt.isSome = true ∧ t = respond statusHalted 0#64 s) ∨
    (s.halt = none ∧ ((∃ c v, t = faulted c v s) ∨ ∃ d o v, t = respond statusOk v { s with dl := d, lfo := o })) := by
  rcases acceptWord_next.mp h with h | ⟨h0, ⟨_, -, rfl⟩ | ⟨_, -, h⟩⟩
  exacts [.inl h, .inr ⟨h0, .inl ⟨_, _, rfl⟩⟩, exec_outcome h]

/-- Everything a step can answer. -/
theorem step_next : step s = .next t ↔
    (s.pending = [] ∧ t = s) ∨
    (∃ rest, s.pending = .reset :: rest ∧ t = resetBlock { s with pending := rest }) ∨
    (∃ rest, s.pending = .take :: rest ∧ t = takeResponse { s with pending := rest }) ∨
    ∃ w rest, s.pending = .command w :: rest ∧ acceptWord w { s with pending := rest } = .next t := by
  unfold step takeItem
  cases hp : s.pending with
  | nil => simpa using eq_comm
  | cons it rest =>
    cases it
    · simp only [List.cons_ne_nil, false_and, false_or, reduceCtorEq, List.cons.injEq, Item.command.injEq, exists_false]
      constructor
      · exact fun h => ⟨_, _, ⟨rfl, rfl⟩, h⟩
      · rintro ⟨_, _, ⟨rfl, rfl⟩, h⟩; exact h
    · simpa using eq_comm
    · simpa using eq_comm

end Sys2Proof.Machine
end

