-- ==== Sys2Proof/Laws/PerInstr.lean ====
section
/-! SUPPORT. A statement about every command as syntax: its word carries its opcode and, when it is well formed, slots that pass
the checks of their kinds (spec 30_encoding R46 to R48). One lemma per constructor of `Instr`. -/

namespace Sys2Proof.Laws.LegalSlots

open Sys2Proof

/-- The operation's opcode selects it, and both slots of a well-formed command are legal at its block's `FLEN`. -/
def Statement (i : Instr) : Prop :=
  operationOf (opcodeOf (operation i)) = some (operation i) ∧
  ∀ fl, i.wf fl → slotLegal fl (formatOf (operation i)).1 (aSlot i) = true
    ∧ slotLegal fl (formatOf (operation i)).2 (bSlot i) = true

/-- A zero-extended index passes the check of an index slot. -/
theorem upperZero_index (n : Index) : upperZero (n.setWidth 64) = true := by
  simp only [upperZero, beq_iff_eq]
  apply BitVec.eq_of_toNat_eq
  have := n.isLt
  simp [BitVec.extractLsb'_toNat, Nat.shiftRight_eq_div_pow]
  omega

/-- A `T` word passes the check of a float slot. -/
theorem slotLegal_float {fl : Flen} {x : Sample} (h : fl.fits x) : slotLegal fl .float x = true := by
  rcases h with rfl | h
  · simp [slotLegal]
  · have : upperZero x = true := by
      simp only [upperZero, beq_iff_eq]
      apply BitVec.eq_of_toNat_eq
      simp [BitVec.extractLsb'_toNat, Nat.shiftRight_eq_div_pow]
      omega
    simp [slotLegal, this]

theorem dlNew (n m : Index) : Statement (.dlNew n m) :=
  ⟨rfl, fun _ _ => ⟨upperZero_index n, upperZero_index m⟩⟩

theorem dlWrite (ch : Index) (x : Sample) : Statement (.dlWrite ch x) :=
  ⟨rfl, fun _ h => ⟨upperZero_index ch, slotLegal_float h⟩⟩

theorem dlRead (ch d : Index) : Statement (.dlRead ch d) :=
  ⟨rfl, fun _ _ => ⟨upperZero_index ch, upperZero_index d⟩⟩

theorem dlReadi (ch : Index) (x : Sample) : Statement (.dlReadi ch x) :=
  ⟨rfl, fun _ h => ⟨upperZero_index ch, slotLegal_float h⟩⟩

theorem lfoNew (f sr : Sample) : Statement (.lfoNew f sr) :=
  ⟨rfl, fun _ h => ⟨slotLegal_float h.1, slotLegal_float h.2⟩⟩

theorem lfoSetf (f : Sample) : Statement (.lfoSetf f) :=
  ⟨rfl, fun _ h => ⟨slotLegal_float h, rfl⟩⟩

theorem lfoNext : Statement .lfoNext := ⟨rfl, fun _ _ => ⟨rfl, rfl⟩⟩

end Sys2Proof.Laws.LegalSlots
end

