-- ==== Sys2Proof/Laws/Ring.lean ====
section
/-! SUPPORT. The addresses the delay-line commands form under R23: each is inside its channel's ring (R23 (d), R32, R81, R83). -/

namespace Sys2Proof.Machine

variable {c : Config} {d : DelayLine} {ch : Index}

/-- The address of a slot of a used channel is below `DLN * DLM`. -/
theorem slot_in_store {n m i k : Nat} (hi : i < m) (hk : k < n) : i * n + k < n * m := by
  calc i * n + k < i * n + n := by omega
    _ = (i + 1) * n := by ring
    _ ≤ m * n := Nat.mul_le_mul_right _ hi
    _ = n * m := Nat.mul_comm _ _

/-- Slots of different channels have different addresses. -/
theorem slots_disjoint {n i j k l : Nat} (hk : k < n) (hl : l < n) (h : i ≠ j) : i * n + k ≠ j * n + l := by
  intro he
  rcases Nat.lt_or_gt_of_ne h with h | h
  · have : (i + 1) * n ≤ j * n := Nat.mul_le_mul_right _ h
    rw [Nat.add_mul] at this; omega
  · have : (j + 1) * n ≤ i * n := Nat.mul_le_mul_right _ h
    rw [Nat.add_mul] at this; omega

/-- Under R23 a used channel has a cursor, inside its ring. -/
theorem ring_cursor (h : RingInv c d) (hc : ch.toNat < d.dlm.toNat) :
    ∃ cur, d.wcur[ch.toNat]? = some cur ∧ cur.toNat = cursorOf d ch ∧ cur.toNat < d.dln.toNat := by
  obtain ⟨-, -, -, hl, hk, -⟩ := h
  have hlt : ch.toNat < d.wcur.length := hl ▸ hc
  refine ⟨d.wcur[ch.toNat], List.getElem?_eq_getElem hlt, ?_, hk _ (List.mem_map_of_mem (List.getElem_mem hlt))⟩
  simp [cursorOf, List.getD, List.getElem?_eq_getElem hlt]

/-- The two forms of R81 agree: the slot of a delay, in [0, n). -/
theorem delayedSlot_eq {n cur delay : Nat} (h : cur < n) :
    delayedSlot n cur delay =
      ((if n ≤ cur + n - 1 - delay % n then cur + n - 1 - delay % n - n else cur + n - 1 - delay % n : Nat) : Int) ∧
    (if n ≤ cur + n - 1 - delay % n then cur + n - 1 - delay % n - n else cur + n - 1 - delay % n) < n := by
  have hr : delay % n < n := Nat.mod_lt _ (by omega)
  unfold delayedSlot
  simp only
  generalize delay % n = r at hr
  constructor
  · split <;> split <;> omega
  · split <;> omega

/-- Every delayed read of a used channel finds its sample (R93, R101). -/
theorem dlRead_eq (h : RingInv c d) (hc : ch.toNat < d.dlm.toNat) {cur : Index}
    (hcur : d.wcur[ch.toNat]? = some cur) (delay : Nat) :
    dlRead d ch cur delay = some (delayedSample d ch delay) ∧ delayedIndex d ch delay < storeWords d := by
  obtain ⟨cur', h1, h2, h3⟩ := ring_cursor h hc
  obtain rfl : cur = cur' := by rw [hcur] at h1; exact Option.some.inj h1
  obtain ⟨hs, hlt⟩ := delayedSlot_eq (delay := delay) h3
  have hin := slot_in_store hc hlt
  have hidx : slotAddress d ch (delayedSlot d.dln.toNat cur.toNat delay) = (delayedIndex d ch delay : Int) := by
    rw [hs, slotAddress, delayedIndex, ← h2]; push_cast; rfl
  have hb : delayedIndex d ch delay < storeWords d := by
    rw [delayedIndex, ← h2]; exact hin
  refine ⟨?_, hb⟩
  rw [dlRead, hidx, loadWord_some]
  exact ⟨⟨by omega, by exact_mod_cast hb⟩, rfl⟩

/-- A write at the cursor of a used channel finds its word (R91, R101). -/
theorem write_in_store (h : RingInv c d) (hc : ch.toNat < d.dlm.toNat) {cur : Index}
    (hcur : d.wcur[ch.toNat]? = some cur) (x : Sample) :
    storeWord d (slotAddress d ch cur.toNat) x =
      some { d with store := memWrite d.store (ch.toNat * d.dln.toNat + cur.toNat) x }
    ∧ ch.toNat * d.dln.toNat + cur.toNat < storeWords d := by
  obtain ⟨cur', h1, -, h3⟩ := ring_cursor h hc
  obtain rfl : cur = cur' := by rw [hcur] at h1; exact Option.some.inj h1
  have hb := slot_in_store hc h3
  refine ⟨?_, hb⟩
  rw [storeWord_some]
  have : slotAddress d ch cur.toNat = ((ch.toNat * d.dln.toNat + cur.toNat : Nat) : Int) := by
    rw [slotAddress]; push_cast; rfl
  rw [this]
  exact ⟨⟨by omega, by exact_mod_cast hb⟩, rfl⟩

/-- The next cursor stays in the ring. -/
theorem nextCursor_toNat (hn : 1 ≤ d.dln.toNat) (cur : Index) :
    (nextCursor d cur).toNat = (cur.toNat + 1) % d.dln.toNat ∧ (nextCursor d cur).toNat < d.dln.toNat := by
  have h1 : (cur.toNat + 1) % d.dln.toNat < d.dln.toNat := Nat.mod_lt _ hn
  have h2 := d.dln.isLt
  have h3 : (nextCursor d cur).toNat = (cur.toNat + 1) % d.dln.toNat := by
    rw [nextCursor, BitVec.toNat_ofNat]; exact Nat.mod_eq_of_lt (by omega)
  exact ⟨h3, by omega⟩

/-- The delay line after a write keeps R23. -/
theorem write_ringInv (h : RingInv c d) (hc : ch.toNat < d.dlm.toNat) {cur : Index}
    (hcur : d.wcur[ch.toNat]? = some cur) {x : Sample} (hx : c.flen.fits x) :
    RingInv c (setCursor { d with store := memWrite d.store (ch.toNat * d.dln.toNat + cur.toNat) x } ch
      (nextCursor d cur)) := by
  obtain ⟨-, hb⟩ := write_in_store h hc hcur x
  obtain ⟨h1, h2, h3, h4, h5, h6, h7⟩ := h
  refine ⟨h1, h2, h3, by simpa using h4, fun k hk => ?_, memWrite_wf h6, fun w hw => ?_⟩
  · obtain ⟨k, hk', rfl⟩ := List.mem_map.mp hk
    rcases List.mem_or_eq_of_mem_set hk' with hk | rfl
    · exact h5 _ (List.mem_map_of_mem hk)
    · exact (nextCursor_toNat h1 cur).2
  · rcases mem_memWrite hw with ⟨rfl, -⟩ | hw
    · exact ⟨hb, hx⟩
    · exact h7 w hw

/-- What `DL.NEW` makes meets R23. -/
theorem fresh_ringInv {n m : Index} (hn : n ≠ 0#32) (hm : m.toNat ≤ c.maxch) (hnm : n.toNat * m.toNat ≤ c.depth) :
    RingInv c (freshDelayLine n m) := by
  have hn' : 1 ≤ n.toNat := by
    rcases Nat.eq_zero_or_pos n.toNat with h | h
    · exact absurd (BitVec.eq_of_toNat_eq (by simpa using h)) hn
    · exact h
  refine ⟨hn', hm, hnm, by simp, fun k hk => ?_, fresh_store_wf n m, by simp⟩
  obtain ⟨k, hk', rfl⟩ := List.mem_map.mp hk
  obtain ⟨-, rfl⟩ := List.mem_replicate.mp hk'
  exact hn'

/-- The four conditions of R142, as one: the operand is a number with `0 <= x` and a floor below 2^32 - 1. -/
theorem invalidDelay_eq_false {fl : Flen} {x : Sample} : invalidDelay fl x = false ↔
    isFinite fl x = true ∧ 0 ≤ valUnits fl x ∧ floorInt fl x < 2 ^ 32 - 1 := by
  have hz : fisnan fl zeroT = false := by cases fl <;> rfl
  have hv : valUnits fl zeroT = 0 := by cases fl <;> rfl
  have hone : (0 : Int) < (oneUnits fl : Int) := by exact_mod_cast oneUnits_pos fl
  have hlim : ∀ y : Int, (2 ^ 32 - 1) * (oneUnits fl : Int) ≤ y * oneUnits fl ↔ (2 ^ 32 - 1 : Int) ≤ y :=
    fun y => ⟨fun h => Int.le_of_mul_le_mul_right h hone, fun h => Int.mul_le_mul_of_nonneg_right h hone.le⟩
  by_cases hf : isFinite fl x = true
  · obtain ⟨-, h2⟩ := ffloor_spec hf
    simp only [invalidDelay, flt, fgt, delayLimit, fisnan_of_isFinite hf, fisinf_of_isFinite hf, hz, hv, h2, hlim, hf,
      Bool.or_eq_false_iff, Bool.false_or, Bool.not_false, Bool.true_and, Bool.false_and, decide_eq_false_iff_not, true_and,
      and_true, not_lt, not_le]
  · have h1 := expField_le (fl := fl) x
    have hf' := hf
    simp only [isFinite, decide_eq_true_eq] at hf'
    have h2 : expField fl x = expTop fl := by omega
    simp only [hf]
    by_cases hfr : fracField fl x = 0
    · have hinf : fisinf fl x = true := by simp [fisinf, h2, hfr]
      cases hs : signBit fl x
      · simp [invalidDelay, hinf, hs]
      · have hnan : fisnan fl x = false := by simp [fisnan, hfr]
        have hm : 0 < magUnits fl x := by
          have ht : expField fl x ≠ 0 := by rw [h2, expTop_eq]; omega
          rw [magUnits, if_neg ht]
          exact Nat.mul_pos (by have := Nat.two_pow_pos (fracBits fl); omega) (Nat.two_pow_pos _)
        have hneg : valUnits fl x < 0 := by rw [valUnits, if_pos hs]; omega
        simp [invalidDelay, flt, fgt, hnan, hz, hv, hneg]
    · have hnan : fisnan fl x = true := by simp [fisnan, h2, hfr]
      simp [invalidDelay, hnan]

/-- The floor of a value that is not negative is not negative. -/
theorem floorInt_nonneg {fl : Flen} {x : Sample} (h : 0 ≤ valUnits fl x) : 0 ≤ floorInt fl x :=
  Int.ediv_nonneg h (by positivity)

end Sys2Proof.Machine
end

