-- ==== Sys2Proof/Tests/Slice0.lean ====
section
/-! SUPPORT. Tests of the model against the words and vectors printed in spec/ (30_encoding R51, 95_test_vectors), the smoke
test of `Instr.wf`, and a witness for every statement that has hypotheses. No expected value comes from the model. -/

namespace Sys2Proof.Tests

set_option Elab.async false

open Sys2Proof Sys2Proof.Machine

/-! ### Helpers -/

/-- The next state a result holds. -/
def got : Result → Option State
  | .next s => some s
  | _ => none

theorem next_of_got {r : Result} {t : State} (h : got r = some t) : r = .next t := by
  cases r <;> simp_all [got]

/-- The last response after a result. -/
def answer (r : Result) : Option ResponseWord := (got r).bind fun t => t.waiting.getLast?

/-- A block right after reset. -/
def block (fl : Flen) (mode : PhaseWrap) : State :=
  State.resetOf { Config.standard with flen := fl, phaseWrap := mode }

/-- The delay line of V3: `N` = 3, `M` = 2, channel 0 holds 3.0, 4.0, 5.0 oldest to newest. -/
def ringV3 : DelayLine :=
  { dln := 3, dlm := 2, wcur := [2, 0]
    store := [(0, 0x4010000000000000#64), (1, 0x4014000000000000#64), (2, 0x4008000000000000#64)] }

/-- The state of V3, `FLEN` = 64. -/
def stateV3 : State := { block .f64 .reset with dl := some ringV3 }

/-- An oscillator with `FREQ` = 250.0, `SRATE` = 1000.0, `INC` = 0.25 (V15) at a phase. -/
def oscV15 (phase : Sample) : Oscillator :=
  { freq := 0x406F400000000000#64, srate := 0x408F400000000000#64, phase := phase, inc := 0x3FD0000000000000#64 }

/-- The oscillator of V15 in an `FLEN` = 64 block. -/
def stateV15 (mode : PhaseWrap) (phase : Sample) : State := { block .f64 mode with lfo := some (oscV15 phase) }

/-- A halted block: `ChannelOutOfRange` for channel 1 (P4, step 2), with a state to keep. -/
def haltedP4 : State :=
  { block .f64 .reset with
    dl := some { dln := 2, dlm := 1, wcur := [0], store := [] }
    halt := some ⟨.channelOutOfRange, 1#64⟩
    waiting := [0x000000000000000000#72, 0x070000000000000001#72] }

/-- A state with what the host presents next. -/
def presenting (items : List Item) (s : State) : State := { s with pending := items }

/-! ### WellFormed: one ill-formed command for each check -/

theorem test_wf_refuses_dlWrite_sample : ¬ (Instr.dlWrite 0 0x3FF0000000000000#64).wf .f32 := by decide
theorem test_wf_refuses_dlReadi_delay : ¬ (Instr.dlReadi 0 0x100000000#64).wf .f32 := by decide
theorem test_wf_refuses_lfoNew_frequency : ¬ (Instr.lfoNew 0x403E000000000000#64 0x447A0000#64).wf .f32 := by decide
theorem test_wf_refuses_lfoNew_rate : ¬ (Instr.lfoNew 0x41F00000#64 0x408F400000000000#64).wf .f32 := by decide
theorem test_wf_refuses_lfoSetf_frequency : ¬ (Instr.lfoSetf 0x8000000000000000#64).wf .f32 := by decide

theorem test_wf_accepts : (Instr.dlWrite 0 0xFFFFFFFF#64).wf .f32 ∧ (Instr.dlWrite 0 0x3FF0000000000000#64).wf .f64
    ∧ (Instr.dlNew 0xFFFFFFFF 0xFFFFFFFF).wf .f32 ∧ Instr.lfoNext.wf .f32 := by decide

/-! ### Decoding: words written out in the spec (R51, V7, V8, V9) -/

theorem test_decode_dlNew : decode .f64 0x1000000000FFFFFFFF00000000FFFFFFFF#136 = .ok (.dlNew 4294967295 4294967295)
    ∧ decode .f32 0x1000000000000000030000000000000001#136 = .ok (.dlNew 3 1) := by decide +kernel

theorem test_decode_dlWrite : decode .f64 0x110000000000000001BFF0000000000000#136 = .ok (.dlWrite 1 0xBFF0000000000000)
    ∧ decode .f32 0x11000000000000000100000000BF800000#136 = .ok (.dlWrite 1 0xBF800000)
    ∧ decode .f64 0x11000000000000000000000000BF800000#136 = .ok (.dlWrite 0 0xBF800000) := by decide +kernel

theorem test_decode_dlRead : decode .f32 0x12000000000000000000000000FFFFFFFF#136 = .ok (.dlRead 0 4294967295) := by
  decide +kernel

theorem test_decode_dlReadi : decode .f64 0x1300000000000000007FF8000000000000#136 = .ok (.dlReadi 0 0x7FF8000000000000)
    ∧ decode .f32 0x130000000000000000000000003F000000#136 = .ok (.dlReadi 0 0x3F000000) := by decide +kernel

theorem test_decode_lfoNew :
    decode .f64 0x20403E000000000000408F400000000000#136 = .ok (.lfoNew 0x403E000000000000 0x408F400000000000)
    ∧ decode .f32 0x200000000041F0000000000000447A0000#136 = .ok (.lfoNew 0x41F00000 0x447A0000) := by decide +kernel

theorem test_decode_lfoSetf : decode .f64 0x21FFF00000000000000000000000000000#136 = .ok (.lfoSetf 0xFFF0000000000000) := by
  decide +kernel

theorem test_decode_lfoNext : decode .f64 0x2200000000000000000000000000000000#136 = .ok .lfoNext
    ∧ decode .f32 0x2200000000000000000000000000000000#136 = .ok .lfoNext := by decide +kernel

/-- V8, and V9's word at `FLEN` = 32. -/
theorem test_decode_illegal :
    decode .f64 0x0000000000000000000000000000000000#136 = .error .badOpcode
    ∧ decode .f64 0xFFFFFFFFFFFFFFFFFFFFFFFFFFFFFFFFFF#136 = .error .badOpcode
    ∧ decode .f64 0x1400000000000000000000000000000000#136 = .error .badOpcode
    ∧ decode .f64 0x2300000000000000000000000000000000#136 = .error .badOpcode
    ∧ decode .f64 0x1200000001000000000000000000000000#136 = .error (.badSlot .a .index)
    ∧ decode .f64 0x1000000000000000038000000000000001#136 = .error (.badSlot .b .index)
    ∧ decode .f64 0x2200000000000000000000000000000001#136 = .error (.badSlot .b .unused)
    ∧ decode .f64 0x21406F4000000000000000000000000001#136 = .error (.badSlot .b .unused)
    ∧ decode .f32 0x1100000000000000003FF0000000000000#136 = .error (.badSlot .b .float) := by decide +kernel

/-- R51: `dl.read 0, 11`. -/
theorem test_encode : encode (.dlRead 0 11) = 0x120000000000000000000000000000000B#136 := by decide +kernel

/-- The rows of spec/opcode_table.json: `DL.READ`'s match, and the same word with bit 128 set, which is `DL.READI`. -/
theorem test_decodeTableWord : decodeTableWord 136 0x1200000000000000000000000000000000 = some (.dlRead 0 0)
    ∧ decodeTableWord 136 0x1300000000000000000000000000000000 = some (.dlReadi 0 0)
    ∧ decodeTableWord 136 0x1400000000000000000000000000000000 = none := by decide +kernel

/-- R55's syntax on lines of 95_test_vectors: mnemonics in either case, a comment, hexadecimal, literals, `bits:`. -/
theorem test_assemble :
    assemble .f64 "DL.New 3, 1 ; construct\n\n  dl.write 0, 1.0\ndl.read 0, 0xB\nlfo.new 30, -0.0\nlfo.next".toList
      = some [0x1000000000000000030000000000000001#136, 0x1100000000000000003FF0000000000000#136,
        0x120000000000000000000000000000000B#136, 0x20403E0000000000008000000000000000#136,
        0x2200000000000000000000000000000000#136]
    ∧ assemble .f32 "lfo.new 30, 1000\nlfo.setf bits:0x437A0000\ndl.readi 0, 5e-1".toList
      = some [0x200000000041F0000000000000447A0000#136, 0x2100000000437A00000000000000000000#136,
        0x130000000000000000000000003F000000#136]
    ∧ assemble .f64 "dl.read 4294967296, 0".toList = none := by decide +kernel

/-! ### Commands (41_delay_line, 42_lfo; vectors of 95_test_vectors) -/

/-- V22: 512 * 2 = 1024 = `DEPTH` is accepted, `STATUS` 00000001. -/
theorem test_dlNew_takes_all : answer (exec (.dlNew 512 2) (block .f64 .reset)) = some 0x000000000000000000#72
    ∧ (got (exec (.dlNew 512 2) (block .f64 .reset))).map statusReg = some 0x00000001#32 := by decide +kernel

/-- V22: 65536 * 65536 = 2^32 does not wrap to 0. -/
theorem test_dlNew_product_exact :
    answer (exec (.dlNew 65536 65536) (block .f64 .reset)) = some 0x050001000000010000#72
    ∧ (got (exec (.dlNew 65536 65536) (block .f64 .reset))).map statusReg = some 0x00000504#32 := by decide +kernel

/-- V4: the word goes to `STORE[3]`, `WCUR` = [2, 1]. -/
theorem test_dlWrite_channel_1 :
    (got (exec (.dlWrite 1 0xBFF0000000000000) stateV3)).bind State.dl =
      some { ringV3 with wcur := [2, 1], store := ringV3.store ++ [(3, 0xBFF0000000000000#64)] } := by decide +kernel

/-- R91, R81: a write at the last slot brings the cursor to 0. -/
theorem test_dlWrite_wraps :
    (got (exec (.dlWrite 0 0#64) stateV3)).bind State.dl =
      some { ringV3 with wcur := [0, 0], store := [(0, 0x4010000000000000#64), (1, 0x4014000000000000#64)] } := by
  decide +kernel

/-- V3: delay 3 = `N` is the newest sample again, delay 2 the oldest; delay 4294967295 reads like 0. -/
theorem test_dlRead_modulo : answer (exec (.dlRead 0 3) stateV3) = some 0x004014000000000000#72
    ∧ answer (exec (.dlRead 0 2) stateV3) = some 0x004008000000000000#72
    ∧ answer (exec (.dlRead 0 4294967295) stateV3) = some 0x004014000000000000#72 := by decide +kernel

/-- V22: `dl.read 2, 0` with two channels. -/
theorem test_dlRead_channel : answer (exec (.dlRead 2 0) stateV3) = some 0x070000000000000002#72 := by decide +kernel

/-- V13, 2.75: between the oldest and, wrapped, the newest; V14: the largest accepted delay. -/
theorem test_dlReadi_values : answer (exec (.dlReadi 0 0x4006000000000000) stateV3) = some 0x004012000000000000#72
    ∧ answer (exec (.dlReadi 0 0x41EFFFFFFFDFFFFF) stateV3) = some 0x004013FFFFC0000000#72 := by decide +kernel

/-- V14: 4294967295.0, the smallest negative subnormal and a NaN with a payload fault; -0 does not. -/
theorem test_dlReadi_limits : answer (exec (.dlReadi 0 0x41EFFFFFFFE00000) stateV3) = some 0x0841EFFFFFFFE00000#72
    ∧ answer (exec (.dlReadi 0 0x8000000000000001) stateV3) = some 0x088000000000000001#72
    ∧ answer (exec (.dlReadi 0 0x7FF8000000000001) stateV3) = some 0x087FF8000000000001#72
    ∧ answer (exec (.dlReadi 0 0x8000000000000000) stateV3) = some 0x004014000000000000#72 := by decide +kernel

/-- R110's example: `lfo.new 30, 1000` in both formats. -/
theorem test_lfoNew_increment :
    (got (exec (.lfoNew 0x403E000000000000 0x408F400000000000) (block .f64 .reset))).bind State.lfo =
      some { freq := 0x403E000000000000#64, srate := 0x408F400000000000#64, phase := 0#64, inc := 0x3F9EB851EB851EB8#64 }
    ∧ (got (exec (.lfoNew 0x41F00000 0x447A0000) (block .f32 .reset))).bind State.lfo =
      some { freq := 0x41F00000#64, srate := 0x447A0000#64, phase := 0#64, inc := 0x3CF5C28F#64 } := by decide +kernel

/-- V22: a rate of -0.0 faults and its bits are recorded; +inf is accepted. -/
theorem test_lfoNew_rate :
    answer (exec (.lfoNew 0x403E000000000000 0x8000000000000000) (block .f64 .reset)) = some 0x068000000000000000#72
    ∧ answer (exec (.lfoNew 0x403E000000000000 0x7FF0000000000000) (block .f64 .reset)) = some 0x000000000000000000#72 := by
  decide +kernel

/-- V21: `lfo.setf 125` at phase 0.5. -/
theorem test_lfoSetf_keeps_phase :
    (got (exec (.lfoSetf 0x405F400000000000) (stateV15 .reset 0x3FE0000000000000))).bind State.lfo =
      some { freq := 0x405F400000000000#64, srate := 0x408F400000000000#64, phase := 0x3FE0000000000000#64,
             inc := 0x3FC0000000000000#64 } := by decide +kernel

/-- V22's pattern: `lfo.setf` on a block right after reset. -/
theorem test_lfoSetf_unconstructed : answer (exec (.lfoSetf 0#64) (block .f32 .frac)) = some 0x020000000000000021#72 := by
  decide +kernel

/-- V15 and V16, call 4: from phase 0.75, `RESET` keeps 1.0 and `FRAC` gives +0. -/
theorem test_lfoNext_wrap :
    answer (exec .lfoNext (stateV15 .reset 0x3FE8000000000000)) = some 0x003CA1A62633145C07#72
    ∧ (got (exec .lfoNext (stateV15 .reset 0x3FE8000000000000))).bind State.lfo = some (oscV15 0x3FF0000000000000)
    ∧ answer (exec .lfoNext (stateV15 .frac 0x3FE8000000000000)) = some 0x00BCA1A62633145C07#72
    ∧ (got (exec .lfoNext (stateV15 .frac 0x3FE8000000000000))).bind State.lfo = some (oscV15 0#64) := by decide +kernel

/-- V17, call 2: from phase 0.03. -/
theorem test_lfoNext_value :
    answer (exec .lfoNext { block .f64 .frac with
      lfo := some { freq := 0x403E000000000000#64, srate := 0x408F400000000000#64
                    phase := 0x3F9EB851EB851EB8#64, inc := 0x3F9EB851EB851EB8#64 } }) = some 0x00BFD78F5A48A8A91C#72 := by
  decide +kernel

/-! ### The port: priority, halt, reset (V23, P4) -/

/-- V23: illegal before `NotConstructed`; `Halted` before illegal. -/
theorem test_priority :
    answer (step (presenting [.command 0x1100000001000000000000000000000000#136] (block .f64 .reset)))
      = some 0x010000000000000011#72
    ∧ answer (step (presenting [.command 0x0000000000000000000000000000000000#136] haltedP4))
      = some 0xFF0000000000000000#72 := by decide +kernel

/-- P4: `STATUS` 00000705, `FVAL` 1 while halted, kept by a discarded command; both 0 after reset. -/
theorem test_halt_and_reset : statusReg haltedP4 = 0x00000705#32 ∧ fvalReg haltedP4 = 1#64
    ∧ (got (step (presenting [.command 0x1200000000000000000000000000000000#136] haltedP4))).map statusReg
        = some 0x00000705#32
    ∧ (got (step (presenting [.reset] haltedP4))).map (fun t => (statusReg t, fvalReg t)) = some (0#32, 0#64) := by
  decide +kernel

/-- R157, R58: the host takes the first of two responses; the reset drops the second, and what was taken stands. -/
theorem test_reset_drops_waiting :
    (got (step (presenting [.take] haltedP4))).map (fun t => (t.delivered, t.waiting))
      = some ([0x000000000000000000#72], [0x070000000000000001#72])
    ∧ (got (step { haltedP4 with
        pending := [.reset], delivered := [0x000000000000000000#72], waiting := [0x070000000000000001#72] })).map
          (fun t => (t.delivered, t.waiting, t.dropped)) = some ([0x000000000000000000#72], [], [0x070000000000000001#72]) := by
  decide +kernel

/-- The next step runs the presented word, right after reset (V22: `lfo.next` gives `NotConstructed`). -/
theorem test_withFetchWord :
    answer (step (State.reset.withFetchWord 136 0x2200000000000000000000000000000000)) = some 0x020000000000000022#72 := by
  decide +kernel

/-! ### Arithmetic (V10, V11) -/

/-- V10, at `FLEN` = 64. -/
theorem test_arithmetic_special :
    fadd .f64 0 0x8000000000000000 = 0 ∧ fadd .f64 0x8000000000000000 0x8000000000000000 = 0x8000000000000000
    ∧ fadd .f64 0x3FF0000000000000 0xBFF0000000000000 = 0
    ∧ fadd .f64 0x7FF0000000000000 0xFFF0000000000000 = 0x7FF8000000000000
    ∧ fsub .f64 0x8000000000000000 0x8000000000000000 = 0 ∧ fsub .f64 0x8000000000000000 0 = 0x8000000000000000
    ∧ fadd .f64 0xFFF0000000000001 0x3FF0000000000000 = 0x7FF8000000000000
    ∧ fmul .f64 0 0xBFF0000000000000 = 0x8000000000000000 ∧ fmul .f64 0 0x7FF0000000000000 = 0x7FF8000000000000
    ∧ fmul .f64 0xFFF0000000000000 0xC000000000000000 = 0x7FF0000000000000
    ∧ fdiv .f64 0x403E000000000000 0x7FF0000000000000 = 0
    ∧ fdiv .f64 0x8000000000000000 0x408F400000000000 = 0x8000000000000000
    ∧ fdiv .f64 0x7FF0000000000000 0x7FF0000000000000 = 0x7FF8000000000000
    ∧ fdiv .f64 0xFFF0000000000000 0x408F400000000000 = 0xFFF0000000000000 := by decide +kernel

/-- V10: floors, comparisons, index conversion, at `FLEN` = 64. -/
theorem test_floor_compare_convert :
    ffloor .f64 0x4006000000000000 = 0x4000000000000000 ∧ ffloor .f64 0xBFE0000000000000 = 0xBFF0000000000000
    ∧ ffloor .f64 0x3FEFF7CED916872B = 0 ∧ ffloor .f64 0x8000000000000000 = 0x8000000000000000
    ∧ ffloor .f64 0xC000000000000000 = 0xC000000000000000 ∧ ffloor .f64 0x7FF0000000000000 = 0x7FF0000000000000
    ∧ fgt .f64 0x7FF8000000000000 0 = false ∧ flt .f64 0x7FF8000000000000 0 = false
    ∧ fgt .f64 0 0x8000000000000000 = false ∧ flt .f64 0x8000000000000000 0 = false
    ∧ fgt .f64 0x3FF0000000000000 0x3FF0000000000000 = false ∧ fgt .f64 0x7FF0000000000000 0x3FF0000000000000 = true
    ∧ f2idx .f64 0x8000000000000000 = some 0 ∧ f2idx .f64 0x41EFFFFFFFC00000 = some 4294967294 := by decide +kernel

/-- V11, both formats: rounding, ties, overflow, underflow. -/
theorem test_rounding :
    fdiv .f64 0x3FF0000000000000 0x4008000000000000 = 0x3FD5555555555555
    ∧ fdiv .f32 0x3F800000 0x40400000 = 0x3EAAAAAB
    ∧ fadd .f64 0x3FB999999999999A 0x3FC999999999999A = 0x3FD3333333333334
    ∧ fadd .f32 0x3DCCCCCD 0x3E4CCCCD = 0x3E99999A
    ∧ fadd .f64 0x3FF0000000000000 0x3CA0000000000000 = 0x3FF0000000000000
    ∧ fadd .f64 0x3FF0000000000000 0x3CB8000000000000 = 0x3FF0000000000002
    ∧ fadd .f32 0x3F800000 0x33800000 = 0x3F800000 ∧ fadd .f32 0x3F800000 0x34400000 = 0x3F800002
    ∧ fadd .f64 0x7FEFFFFFFFFFFFFF 0x7FEFFFFFFFFFFFFF = 0x7FF0000000000000
    ∧ fmul .f32 0x7F7FFFFF 0x40000000 = 0x7F800000
    ∧ fdiv .f64 1 0x4000000000000000 = 0 ∧ fdiv .f64 3 0x4000000000000000 = 2 ∧ fdiv .f32 3 0x40000000 = 2
    ∧ fmul .f64 0x3F9EB851EB851EB8 (twoPiT .f64) = 0x3FC8209F5B22BAA6
    ∧ fmul .f32 0x3CF5C28F (twoPiT .f32) = 0x3E4104FB
    ∧ fsub .f64 0xBC30000000000000 (ffloor .f64 0xBC30000000000000) = 0x3FF0000000000000 := by decide +kernel

/-- V11, the rows marked (sine), for the reference instance (R85); S3 and S4 (V10). -/
theorem test_reference_sine :
    fsin .reference .f64 (piT .f64) = 0x3CA1A62633145C07 ∧ fsin .reference .f32 (piT .f32) = 0xB3BBBD2E
    ∧ fsin .reference .f64 0xC00921FB54442D18 = 0xBCA1A62633145C07
    ∧ fsin .reference .f64 0x3FF921FB54442D18 = 0x3FF0000000000000 ∧ fsin .reference .f32 0x3FC90FDB = 0x3F800000
    ∧ fsin .reference .f64 0x3FF0000000000000 = 0x3FEAED548F090CEE ∧ fsin .reference .f32 0x3F800000 = 0x3F576AA4
    ∧ fsin .reference .f64 0x7FF0000000000000 = 0x7FF8000000000000
    ∧ fsin .reference .f64 0x8000000000000000 = 0x8000000000000000 := by decide +kernel

/-! ### Witnesses: states and operands that meet the hypotheses of each statement of Certificates/Slice0 -/

/-- The next state of a result that has one. -/
def after (r : Result) : State := (got r).getD State.reset

theorem next_after {r : Result} (h : (got r).isSome = true) : r = .next (after r) := by
  cases r <;> simp_all [got, after]

theorem not_reset {s : State} (h : (match s.pending with | .reset :: _ => false | _ => true) = true) (rest : List Item) :
    s.pending ≠ .reset :: rest := by
  intro he
  rw [he] at h
  exact Bool.noConfusion h

/-- A ring of one word, the smallest capacity. -/
def stateN1 : State := { block .f64 .reset with dl := some { dln := 1, dlm := 1, wcur := [0], store := [] } }

/-- V3's state with a word for the next step. -/
def dlStep (w : CommandWord) : State := presenting [.command w] stateV3

theorem witness_DecodeOfEncode : (Instr.lfoNew 0xFFFFFFFF#64 0#64).wf .f32 ∧ (Instr.lfoNew 0xFFFFFFFFFFFFFFFF#64 0#64).wf .f64 := by
  decide

theorem witness_EncodeOfDecode : decode .f32 0x11000000000000000100000000BF800000#136 = .ok (.dlWrite 1 0xBF800000#64) := by
  decide +kernel

theorem witness_IllegalWordsExactly_opcode : opField 0x23FFFFFFFFFFFFFFFFFFFFFFFFFFFFFFFF#136 = 0x23#8
    ∧ operationOf 0x23#8 = none ∧ ∀ o, 0x23#8 ≠ opcodeOf o := ⟨by decide, by decide, fun o => by cases o <;> decide⟩

theorem witness_IllegalWordsExactly_slots :
    opField 0x1200000001000000000000000000000000#136 = opcodeOf .dlRead
    ∧ (formatOf .dlRead).1 = .index ∧ (aField 0x1200000001000000000000000000000000#136).extractLsb' 32 32 ≠ 0#32
    ∧ (formatOf .dlNew).2 = .index ∧ (bField 0x1000000000000000038000000000000001#136).extractLsb' 32 32 ≠ 0#32
    ∧ (formatOf .lfoNext).1 = .unused ∧ aField 0x2200000000000000010000000000000000#136 ≠ 0#64
    ∧ (formatOf .lfoSetf).2 = .unused ∧ bField 0x21406F4000000000000000000000000001#136 ≠ 0#64
    ∧ (formatOf .lfoNew).1 = .float ∧ (aField 0x2000000001000000000000000000000000#136).extractLsb' 32 32 ≠ 0#32
    ∧ (formatOf .dlWrite).2 = .float ∧ (bField 0x1100000000000000003FF0000000000000#136).extractLsb' 32 32 ≠ 0#32 := by
  decide +kernel

theorem witness_AssemblerEmitsLegalWords :
    assemble .f64 "lfo.next".toList = some [0x2200000000000000000000000000000000#136] := by decide +kernel

theorem witness_StepRunsDecodedCommand : (dlStep 0x1200000000000000000000000000000000#136).halt = none
    ∧ (dlStep 0x1200000000000000000000000000000000#136).pending = [.command 0x1200000000000000000000000000000000#136]
    ∧ decode .f64 0x1200000000000000000000000000000000#136 = .ok (.dlRead 0 0)
    ∧ stateV3.pending = [] ∧ (presenting [.reset] stateV3).pending = [.reset]
    ∧ (presenting [.take] stateV3).pending = [.take] ∧ stateV3.waiting = []
    ∧ haltedP4.waiting = 0x000000000000000000#72 :: [0x070000000000000001#72] := by decide +kernel

/-- A reset while two responses wait, and a write that a reset cuts short. -/
theorem witness_StepTakesReset : (presenting [.reset] haltedP4).pending = [.reset] ∧ haltedP4.waiting ≠ []
    ∧ ∃ t, step (presenting [.command 0x1100000000000000003FF0000000000000#136, .reset] stateV3) = .next t
      ∧ (presenting [.command 0x1100000000000000003FF0000000000000#136, .reset] stateV3).pending
        = [.command 0x1100000000000000003FF0000000000000#136, .reset] :=
  ⟨rfl, by decide, _, next_after (by decide +kernel), rfl⟩

theorem witness_HaltedDiscardsEveryWord : haltedP4.halt.isSome = true
    ∧ (presenting [.command 0#136] haltedP4).pending = [.command 0#136] := by decide

theorem witness_IllegalWordFaults : stateV3.halt = none ∧ (dlStep 0#136).pending = [.command 0#136]
    ∧ decode .f64 0#136 = .error .badOpcode
    ∧ decode .f64 0x2200000000000000000000000000000001#136 = .error (.badSlot .b .unused) := by decide +kernel

theorem witness_OnlyResetEndsHalt :
    (∃ t f, step (presenting [.command 0#136] haltedP4) = .next t ∧ (presenting [.command 0#136] haltedP4).halt = some f)
    ∧ (∀ rest, (presenting [.command 0#136] haltedP4).pending ≠ .reset :: rest)
    ∧ ∃ t, step haltedP4 = .next t :=
  ⟨⟨_, _, next_after (by decide +kernel), rfl⟩, not_reset rfl, _, next_after (by decide +kernel)⟩

theorem witness_OneResponsePerCommand :
    (∃ t, step (dlStep 0#136) = .next t ∧ (dlStep 0#136).pending = [.command 0#136])
    ∧ (∃ t, step (presenting [.reset] haltedP4) = .next t ∧ haltedP4.waiting ≠ [])
    ∧ (∃ t, step (presenting [.take] haltedP4) = .next t ∧ ∀ rest, (presenting [.take] haltedP4).pending ≠ .reset :: rest)
    ∧ ∃ t, step stateV3 = .next t :=
  ⟨⟨_, next_after (by decide +kernel), rfl⟩, ⟨_, next_after (by decide +kernel), by decide⟩,
    ⟨_, next_after (by decide +kernel), not_reset rfl⟩, _, next_after (by decide +kernel)⟩

theorem witness_ResponseTellsOutcome_halted : ∃ t r, step (presenting [.command 0#136] haltedP4) = .next t
    ∧ t.waiting = haltedP4.waiting ++ [r] ∧ haltedP4.halt.isSome = true :=
  ⟨_, 0xFF0000000000000000#72, next_after (by decide +kernel), by decide +kernel⟩

theorem witness_ResponseTellsOutcome_ok : ∃ t r, step (dlStep 0x1200000000000000000000000000000000#136) = .next t
    ∧ t.waiting = stateV3.waiting ++ [r] ∧ stateV3.halt = none ∧ t.halt = none :=
  ⟨_, 0x004014000000000000#72, next_after (by decide +kernel), by decide +kernel⟩

theorem witness_ResponseTellsOutcome_fault : ∃ t r, step (dlStep 0x1200000000000000020000000000000000#136) = .next t
    ∧ t.waiting = stateV3.waiting ++ [r] ∧ stateV3.halt = none ∧ t.halt.isSome = true :=
  ⟨_, 0x070000000000000002#72, next_after (by decide +kernel), by decide +kernel⟩

theorem witness_HaltIffSomeResponseNotOk : (∃ t, step (dlStep 0#136) = .next t ∧ RunOver t ∧ t.halt ≠ none)
    ∧ (∀ rest, (dlStep 0#136).pending ≠ .reset :: rest)
    ∧ ((dlStep 0#136).halt = none ↔ ∀ r ∈ produced (dlStep 0#136), statusField r = statusOk) :=
  ⟨⟨_, next_after (by decide +kernel), by decide +kernel⟩, not_reset rfl,
    ⟨fun _ _ hr => absurd hr List.not_mem_nil, fun _ => rfl⟩⟩

theorem witness_FaultsArePrecise : ∃ t, exec (.dlRead 2 0) stateV3 = .next t ∧ stateV3.halt = none ∧ t.halt ≠ none :=
  ⟨_, next_after (by decide +kernel), by decide +kernel⟩

theorem witness_SizesNeverRewritten :
    (∃ t d d', step (dlStep 0x1100000000000000003FF0000000000000#136) = .next t ∧ stateV3.dl = some d ∧ t.dl = some d')
    ∧ ∃ t o o', step (presenting [.command 0x21406F4000000000000000000000000000#136] (stateV15 .reset 0)) = .next t
      ∧ (stateV15 .reset 0).lfo = some o ∧ t.lfo = some o' :=
  ⟨⟨_, _, { ringV3 with wcur := [0, 0], store := [(0, 0x4010000000000000#64), (1, 0x4014000000000000#64),
      (2, 0x3FF0000000000000#64)] }, next_after (by decide +kernel), rfl, by decide +kernel⟩,
    _, _, oscV15 0, next_after (by decide +kernel), rfl, by decide +kernel⟩

theorem witness_OnlyNewConstructs :
    (∃ t, exec (.dlNew 3 0) (block .f64 .reset) = .next t ∧ (block .f64 .reset).dl = none ∧ t.dl ≠ none)
    ∧ (∃ t, exec (.lfoNew 0 1) (block .f64 .reset) = .next t ∧ (block .f64 .reset).lfo = none ∧ t.lfo ≠ none)
    ∧ (∃ t, step (presenting [.reset] stateV3) = .next t ∧ stateV3.dl ≠ none ∧ t.dl = none)
    ∧ ∃ t, step (presenting [.reset] (stateV15 .frac 0)) = .next t ∧ (stateV15 .frac 0).lfo ≠ none ∧ t.lfo = none :=
  ⟨⟨_, next_after (by decide +kernel), by decide +kernel⟩, ⟨_, next_after (by decide +kernel), by decide +kernel⟩,
    ⟨_, next_after (by decide +kernel), by decide +kernel⟩, _, next_after (by decide +kernel), by decide +kernel⟩

theorem witness_StepKeepsInvariant :
    (∃ t, StateInv (dlStep 0x1100000000000000003FF0000000000000#136)
      ∧ step (dlStep 0x1100000000000000003FF0000000000000#136) = .next t)
    ∧ ∃ t, StateInv (presenting [.command 0x2200000000000000000000000000000000#136] (stateV15 .frac 0))
      ∧ step (presenting [.command 0x2200000000000000000000000000000000#136] (stateV15 .frac 0)) = .next t :=
  ⟨⟨_, by decide +kernel, next_after (by decide +kernel)⟩, _, by decide +kernel, next_after (by decide +kernel)⟩

theorem witness_ResetMeetsInvariant : ({ Config.standard with depth := 1, maxch := 1 } : Config).wf
    ∧ ({ Config.standard with depth := 2 ^ 32 - 1, maxch := 2 ^ 32 - 1 } : Config).wf := by decide +kernel

theorem witness_StepNeverStops : StateInv (dlStep 0x1300000000000000003FE0000000000000#136) := by decide +kernel

theorem witness_UnitsShareNoData :
    (∃ t t', exec (.lfoSetf 0) (stateV15 .reset 0) = .next t
      ∧ exec (.lfoSetf 0) { stateV15 .reset 0 with dl := some ringV3 } = .next t')
    ∧ ∃ t t', exec (.dlRead 0 0) stateV3 = .next t
      ∧ exec (.dlRead 0 0) { stateV3 with lfo := some (oscV15 0) } = .next t' :=
  ⟨⟨_, _, next_after (by decide +kernel), next_after (by decide +kernel)⟩,
    _, _, next_after (by decide +kernel), next_after (by decide +kernel)⟩

theorem witness_StatusFieldLayout : stateV3.halt = none ∧ haltedP4.halt = some ⟨.channelOutOfRange, 1#64⟩ := by decide

theorem witness_OpcodeTableAgrees :
    0x1200000000000000000000000000000001#136 &&& tableMask .f32 .dlRead = tableMatch .dlRead
    ∧ 0x1200000001000000000000000000000001#136 &&& tableMask .f32 .dlRead ≠ tableMatch .dlRead := by decide +kernel

theorem witness_UnconstructedUnitFaults : (stateV15 .reset 0).halt = none ∧ (stateV15 .reset 0).dl = none
    ∧ operation (.dlRead 0 0) ∈ [Operation.dlWrite, .dlRead, .dlReadi]
    ∧ stateV3.halt = none ∧ stateV3.lfo = none ∧ operation .lfoNext ∈ [Operation.lfoSetf, .lfoNext] := by decide +kernel

theorem witness_SecondConstructionFaults : stateV3.halt = none ∧ stateV3.dl.isSome = true
    ∧ (stateV15 .reset 0).halt = none ∧ (stateV15 .reset 0).lfo.isSome = true := by decide +kernel

/-- 9 > `MAXCH`; 1025 * 1 > `DEPTH`; a rate of -0. -/
theorem witness_ConstructionOperandFaults : (block .f64 .reset).halt = none ∧ (block .f64 .reset).dl = none
    ∧ (block .f64 .reset).lfo = none ∧ (block .f64 .reset).cfg.maxch < (9#32 : Index).toNat
    ∧ (block .f64 .reset).cfg.depth < (1025#32 : Index).toNat * (1#32 : Index).toNat ∧ 1 ≤ (1#32 : Index).toNat
    ∧ fgt .f64 0x8000000000000000#64 zeroT = false := by decide +kernel

/-- Channel 2 of two channels. -/
theorem witness_ChannelOutOfRangeFaults : stateV3.halt = none ∧ stateV3.dl = some ringV3
    ∧ ringV3.dlm.toNat ≤ (2#32 : Index).toNat := by decide +kernel

/-- 2^32 - 1 itself, the smallest negative subnormal, a NaN and an infinity, on the last channel. -/
theorem witness_InvalidDelayFaults : stateV3.halt = none ∧ stateV3.dl = some ringV3 ∧ RingInv stateV3.cfg ringV3
    ∧ (1#32 : Index).toNat < ringV3.dlm.toNat
    ∧ (2 ^ 32 - 1 : ℚ) ≤ valQ .f64 0x41EFFFFFFFE00000#64 ∧ valQ .f64 0x8000000000000001#64 < 0
    ∧ isFinite .f64 0x7FF8000000000001#64 = false ∧ isFinite .f64 0x7FF0000000000000#64 = false := by decide +kernel

/-- 512 * 2 = `DEPTH`; 8 = `MAXCH`; no channel at all. -/
theorem witness_CompletesDlNew : (block .f64 .reset).halt = none ∧ (block .f64 .reset).dl = none
    ∧ (512#32 : Index).toNat * (2#32 : Index).toNat ≤ (block .f64 .reset).cfg.depth
    ∧ 1 ≤ (1#32 : Index).toNat ∧ (8#32 : Index).toNat ≤ (block .f64 .reset).cfg.maxch
    ∧ (0#32 : Index).toNat ≤ (block .f64 .reset).cfg.maxch := by decide +kernel

theorem witness_CompletesDlWrite : stateV3.halt = none ∧ stateV3.dl = some ringV3 ∧ RingInv stateV3.cfg ringV3
    ∧ (1#32 : Index).toNat < ringV3.dlm.toNat := by decide +kernel

theorem witness_CompletesDlRead : stateN1.halt = none ∧ stateN1.dl.isSome = true ∧ StateInv stateN1
    ∧ stateV3.dl = some ringV3 ∧ RingInv stateV3.cfg ringV3 ∧ (0#32 : Index).toNat < ringV3.dlm.toNat := by decide +kernel

/-- The largest accepted delay and -0 (V14). -/
theorem witness_CompletesDlReadi : stateV3.halt = none ∧ stateV3.dl = some ringV3 ∧ RingInv stateV3.cfg ringV3
    ∧ (1#32 : Index).toNat < ringV3.dlm.toNat
    ∧ isFinite .f64 0x41EFFFFFFFDFFFFF#64 = true ∧ 0 ≤ valQ .f64 0x41EFFFFFFFDFFFFF#64
    ∧ valQ .f64 0x41EFFFFFFFDFFFFF#64 < 2 ^ 32 - 1
    ∧ isFinite .f64 0x8000000000000000#64 = true ∧ 0 ≤ valQ .f64 0x8000000000000000#64 := by decide +kernel

theorem witness_FrameDlNew : (∃ t, exec (.dlNew 3 2) (block .f32 .reset) = .next t) ∧ ∃ t, exec (.dlNew 3 2) stateV3 = .next t :=
  ⟨⟨_, next_after (by decide +kernel)⟩, _, next_after (by decide +kernel)⟩

theorem witness_FrameDlWrite :
    (∃ t d d', exec (.dlWrite 1 0) stateV3 = .next t ∧ stateV3.dl = some d ∧ t.dl = some d')
    ∧ ∃ t, exec (.dlWrite 2 0) stateV3 = .next t :=
  ⟨⟨_, _, { ringV3 with wcur := [2, 1] }, next_after (by decide +kernel), rfl, by decide +kernel⟩,
    _, next_after (by decide +kernel)⟩

theorem witness_FrameDelayedReads : (∃ t, exec (.dlRead 0 5) stateV3 = .next t)
    ∧ (∃ t, exec (.dlReadi 0 0x4004000000000000) stateV3 = .next t)
    ∧ ∃ t, exec (.dlReadi 0 0xBFF0000000000000) stateV3 = .next t :=
  ⟨⟨_, next_after (by decide +kernel)⟩, ⟨_, next_after (by decide +kernel)⟩, _, next_after (by decide +kernel)⟩

theorem witness_WriteShiftsOwnChannelOnly : ∃ t d', exec (.dlWrite 1 0) stateV3 = .next t ∧ t.dl = some d'
    ∧ stateV3.halt = none ∧ stateV3.dl = some ringV3 ∧ RingInv stateV3.cfg ringV3
    ∧ (1#32 : Index).toNat < ringV3.dlm.toNat ∧ 1 + 1 < ringV3.dln.toNat
    ∧ (0#32 : Index) ≠ 1 ∧ (0#32 : Index).toNat < ringV3.dlm.toNat :=
  ⟨_, { ringV3 with wcur := [2, 1] }, next_after (by decide +kernel), by decide +kernel⟩

/-- Four writes to channel 0 of capacity 3, one to channel 1. -/
theorem witness_ReadReturnsHistory : (block .f64 .reset).halt = none ∧ (block .f64 .reset).dl = none
    ∧ 1 ≤ (3#32 : Index).toNat ∧ (2#32 : Index).toNat ≤ (block .f64 .reset).cfg.maxch
    ∧ (3#32 : Index).toNat * (2#32 : Index).toNat ≤ (block .f64 .reset).cfg.depth
    ∧ (0#32 : Index).toNat < (2#32 : Index).toNat
    ∧ ∀ w ∈ [((0 : Index), oneT .f64), (1, oneT .f64), (0, piT .f64), (0, 0#64), (0, oneT .f64)],
        w.1.toNat < (2#32 : Index).toNat :=
  ⟨rfl, rfl, by decide, by decide, by decide, by decide, List.all_iff_forall_prop.mp (by decide)⟩

theorem witness_IntegralDelayReadsSample_fraction : isFinite .f64 0x4008000000000000#64 = true
    ∧ valUnits .f64 0x4008000000000000#64 % (oneUnits .f64 : Int) = 0
    ∧ isFinite .f32 0x80000000#64 = true ∧ valUnits .f32 0x80000000#64 % (oneUnits .f32 : Int) = 0 := by decide +kernel

/-- V6: `y1` = -0 and `y2` = +0, the exception; 2.0 and 1.0, the rule. -/
theorem witness_IntegralDelayReadsSample_finite :
    Flen.fits .f64 0x8000000000000000#64 ∧ isFinite .f64 0x8000000000000000#64 = true ∧ isFinite .f64 0#64 = true
    ∧ isFinite .f64 (fsub .f64 0#64 0x8000000000000000#64) = true
    ∧ 0x8000000000000000#64 = zeroOf .f64 true ∧ fmul .f64 zeroT (fsub .f64 0#64 0x8000000000000000#64) = zeroT
    ∧ Flen.fits .f32 0x40000000#64 ∧ isFinite .f32 0x40000000#64 = true ∧ isFinite .f32 0x3F800000#64 = true
    ∧ isFinite .f32 (fsub .f32 0x3F800000#64 0x40000000#64) = true ∧ 0x40000000#64 ≠ zeroOf .f32 true := by decide +kernel

theorem witness_IntegralDelayReadsSample_other : isFinite .f64 0x7FF0000000000000#64 = false
    ∧ isFinite .f64 (fsub .f64 0x7FEFFFFFFFFFFFFF#64 0xFFEFFFFFFFFFFFFF#64) = false
    ∧ isFinite .f64 0x7FEFFFFFFFFFFFFF#64 = true := by decide +kernel

/-- A ring of three words, and one of one word. -/
theorem witness_MidpointOfOneAndTwo : stateV3.halt = none ∧ stateV3.dl = some ringV3 ∧ RingInv stateV3.cfg ringV3
    ∧ (1#32 : Index).toNat < ringV3.dlm.toNat ∧ stateN1.halt = none ∧ stateN1.dl.isSome = true ∧ StateInv stateN1 := by
  decide +kernel

/-- The smallest positive rate, and +inf. -/
theorem witness_CompletesLfoNew : (block .f64 .reset).halt = none ∧ (block .f64 .reset).lfo = none
    ∧ fgt .f64 1#64 zeroT = true ∧ fgt .f64 0x7FF0000000000000#64 zeroT = true := by decide +kernel

theorem witness_CompletesLfoSetf : (stateV15 .reset 0).halt = none ∧ (stateV15 .reset 0).lfo = some (oscV15 0) := by
  decide +kernel

theorem witness_CompletesLfoNext : (stateV15 .reset 0).halt = none ∧ (stateV15 .reset 0).lfo = some (oscV15 0)
    ∧ (stateV15 .reset 0).cfg.phaseWrap = .reset ∧ (stateV15 .frac 0).halt = none
    ∧ (stateV15 .frac 0).lfo = some (oscV15 0) ∧ (stateV15 .frac 0).cfg.phaseWrap = .frac := by decide +kernel

theorem witness_FrameOscillatorCommands : (∃ t, exec (.lfoNew 0 1) (stateV15 .reset 0) = .next t)
    ∧ (∃ t, exec (.lfoSetf 0) (stateV15 .reset 0) = .next t) ∧ (∃ t, exec .lfoNext (stateV15 .frac 0) = .next t)
    ∧ ∃ t, exec .lfoNext stateV3 = .next t :=
  ⟨⟨_, next_after (by decide +kernel)⟩, ⟨_, next_after (by decide +kernel)⟩, ⟨_, next_after (by decide +kernel)⟩,
    _, next_after (by decide +kernel)⟩

/-- From phase 0.75 to exactly 1. -/
theorem witness_ResetPhaseNotAboveOne : ∃ t o, exec .lfoNext (stateV15 .reset 0x3FE8000000000000) = .next t
    ∧ t.lfo = some o ∧ (stateV15 .reset 0x3FE8000000000000).cfg.phaseWrap = .reset
    ∧ (stateV15 .reset 0x3FE8000000000000).halt = none :=
  ⟨_, oscV15 0x3FF0000000000000, next_after (by decide +kernel), by decide +kernel⟩

/-- From phase 0.75, and from a phase of -0.25 less 2^-60, so that the advanced phase is negative. -/
theorem witness_FracPhaseInUnitInterval :
    (∃ t o', exec .lfoNext (stateV15 .frac 0x3FE8000000000000) = .next t ∧ t.lfo = some o'
      ∧ (stateV15 .frac 0x3FE8000000000000).cfg.phaseWrap = .frac ∧ (stateV15 .frac 0x3FE8000000000000).halt = none)
    ∧ isFinite .f64 (fadd .f64 0x3FE8000000000000 0x3FD0000000000000) = true
    ∧ 0 ≤ valQ .f64 (fadd .f64 0x3FE8000000000000 0x3FD0000000000000)
    ∧ isFinite .f64 (fadd .f64 0xBFD0000000000001 0x3FD0000000000000) = true
    ∧ valQ .f64 (fadd .f64 0xBFD0000000000001 0x3FD0000000000000) < 0 :=
  ⟨⟨_, oscV15 0, next_after (by decide +kernel), by decide +kernel⟩, by decide +kernel⟩

/-- A finite angle, and the angle -inf of a phase -inf (R119). -/
theorem witness_OutputBounded :
    (∃ t, exec .lfoNext (stateV15 .reset 0) = .next t ∧ (stateV15 .reset 0).halt = none)
    ∧ isFinite .f64 (phaseAngle .f64 (nextPhase (stateV15 .reset 0).cfg (oscV15 0))) = true
    ∧ isFinite .f64 (phaseAngle .f64 (nextPhase (stateV15 .reset 0).cfg (oscV15 0xFFF0000000000000))) = false :=
  ⟨⟨_, next_after (by decide +kernel), by decide +kernel⟩, by decide +kernel, by decide +kernel⟩

theorem witness_NanPhasePersists : (stateV15 .frac 0x7FF8000000000001).halt = none
    ∧ (stateV15 .frac 0x7FF8000000000001).lfo = some (oscV15 0x7FF8000000000001)
    ∧ fisnan .f64 (oscV15 0x7FF8000000000001).phase = true
    ∧ fisnan .f64 ({ oscV15 0 with inc := 0xFFF0000000000001#64 } : Oscillator).inc = true := by decide +kernel

/-- An increment of -0; the least above 1; +inf. -/
theorem witness_DegenerateIncrementIsStatic : (stateV15 .reset 0).halt = none ∧ (oscV15 0).phase = zeroT
    ∧ fiszero .f64 0x8000000000000000#64 = true ∧ fgt .f64 0x3FF0000000000001#64 (oneT .f64) = true
    ∧ fgt .f64 0x7FF0000000000000#64 (oneT .f64) = true ∧ (stateV15 .reset 0).cfg.phaseWrap = .reset := by decide +kernel

theorem witness_SineProperties : isFinite .f64 0x7FEFFFFFFFFFFFFF#64 = true ∧ isFinite .f64 0x7FF0000000000000#64 = false
    ∧ isFinite .f32 1#64 = true ∧ isFinite .f32 0xFFFFFFFF#64 = false := by decide +kernel

/-- The largest subnormal, the least normal number. -/
theorem witness_FiniteWordValue : isFinite .f64 0x000FFFFFFFFFFFFF#64 = true ∧ expField .f64 0x000FFFFFFFFFFFFF#64 = 0
    ∧ isFinite .f32 0x80800000#64 = true ∧ expField .f32 0x80800000#64 = 1 := by decide +kernel

/-- The overflow threshold of `FLEN` = 32 exactly, and one unit below it. -/
theorem witness_RoundingIsNearestEven :
    let top := 2 ^ 103 * (2 ^ 25 - 1) * 2 ^ 149
    0 < top ∧ 0 < 1 ∧ overflowQ .f32 ≤ |(1 : ℚ) * ((top : ℕ) / (1 : ℕ)) / oneUnits .f32|
      ∧ |(1 : ℚ) * ((top - 1 : ℕ) / (1 : ℕ)) / oneUnits .f32| < overflowQ .f32 := by decide +kernel

/-- One pair for each clause, in order. -/
theorem witness_AdditionRounds :
    fisnan .f64 0xFFF0000000000001#64 = true
    ∧ (fisinf .f64 0x7FF0000000000000#64 = true ∧ fisinf .f64 0xFFF0000000000000#64 = true
      ∧ signBit .f64 0x7FF0000000000000#64 ≠ signBit .f64 0xFFF0000000000000#64)
    ∧ (fisinf .f64 0x7FF0000000000000#64 = true ∧ fisnan .f64 1#64 = false ∧ fisinf .f64 1#64 = false)
    ∧ (isFinite .f64 1#64 = true ∧ fisinf .f64 0xFFF0000000000000#64 = true)
    ∧ (fiszero .f64 0#64 = true ∧ fiszero .f64 0x8000000000000000#64 = true)
    ∧ (isFinite .f64 0x8000000000000001#64 = true ∧ fiszero .f64 1#64 = false
      ∧ valQ .f64 1#64 + valQ .f64 0x8000000000000001#64 = 0)
    ∧ (isFinite .f64 0x7FEFFFFFFFFFFFFF#64 = true
      ∧ valQ .f64 0x7FEFFFFFFFFFFFFF#64 + valQ .f64 0x7FEFFFFFFFFFFFFF#64 ≠ 0) := by decide +kernel

/-- One pair for each clause, in order. -/
theorem witness_MultiplicationRounds :
    fisnan .f32 0x7F800001#64 = true
    ∧ (fisinf .f32 0x7F800000#64 = true ∧ fiszero .f32 0x80000000#64 = true)
    ∧ (fisnan .f32 0xFF800000#64 = false ∧ fisnan .f32 1#64 = false ∧ fiszero .f32 0xFF800000#64 = false
      ∧ fiszero .f32 1#64 = false ∧ fisinf .f32 0xFF800000#64 = true)
    ∧ (isFinite .f32 0x80000000#64 = true ∧ isFinite .f32 1#64 = true)
    ∧ (isFinite .f32 0x7F7FFFFF#64 = true ∧ fiszero .f32 0x7F7FFFFF#64 = false) := by decide +kernel

/-- One pair for each clause, in order. -/
theorem witness_DivisionRounds :
    fisnan .f64 0x7FF0000000000001#64 = true
    ∧ ((fisinf .f64 0x7FF0000000000000#64 = true ∧ fisinf .f64 0xFFF0000000000000#64 = true)
      ∧ fiszero .f64 0#64 = true ∧ fiszero .f64 0x8000000000000000#64 = true)
    ∧ isFinite .f64 0#64 = true
    ∧ (isFinite .f64 1#64 = true ∧ fisinf .f64 0xFFF0000000000000#64 = true)
    ∧ (fiszero .f64 1#64 = false ∧ fiszero .f64 0x8000000000000000#64 = true)
    ∧ isFinite .f64 0x7FEFFFFFFFFFFFFF#64 = true ∧ fiszero .f64 0x7FEFFFFFFFFFFFFF#64 = false := by decide +kernel

/-- A NaN; an infinity and -0; the least value and the greatest below 1; -2^-1074. -/
theorem witness_FloorIsExact : fisnan .f64 0x7FF8000000000001#64 = true ∧ fisinf .f64 0xFFF0000000000000#64 = true
    ∧ fiszero .f64 0x8000000000000000#64 = true
    ∧ (isFinite .f64 1#64 = true ∧ 0 < valQ .f64 1#64 ∧ valQ .f64 1#64 < 1)
    ∧ (isFinite .f64 0x3FEFFFFFFFFFFFFF#64 = true ∧ 0 < valQ .f64 0x3FEFFFFFFFFFFFFF#64
      ∧ valQ .f64 0x3FEFFFFFFFFFFFFF#64 < 1)
    ∧ (isFinite .f64 0x8000000000000001#64 = true ∧ valQ .f64 0x8000000000000001#64 < 0)
    ∧ 0 ≤ valQ .f64 0x8000000000000000#64 := by decide +kernel

/-- One pair for each of the three ways to be greater. -/
theorem witness_ComparisonByValue :
    (isFinite .f64 1#64 = true ∧ isFinite .f64 0#64 = true ∧ valQ .f64 0#64 < valQ .f64 1#64)
    ∧ (fisinf .f64 0x7FF0000000000000#64 = true ∧ signBit .f64 0x7FF0000000000000#64 = false
      ∧ fisinf .f64 0x7FEFFFFFFFFFFFFF#64 = false)
    ∧ (fisinf .f64 0xFFF0000000000000#64 = true ∧ signBit .f64 0xFFF0000000000000#64 = true
      ∧ fisinf .f64 0xFFEFFFFFFFFFFFFF#64 = false) := by decide +kernel

theorem witness_IndexConversion : isFinite .f64 0x41EFFFFFFFE00000#64 = true
    ∧ valQ .f64 0x41EFFFFFFFE00000#64 = (4294967295 : ℕ) ∧ 4294967295 ≤ 2 ^ 32 - 1
    ∧ isFinite .f64 0x8000000000000000#64 = true ∧ valQ .f64 0x8000000000000000#64 = (0 : ℕ) := by decide +kernel

theorem witness_NanResultsAreCanonical : fisnan .f64 (fadd .f64 0x7FF0000000000000 0xFFF0000000000000) = true
    ∧ fisnan .f64 (fsub .f64 0x7FF0000000000000 0x7FF0000000000000) = true
    ∧ fisnan .f64 (fmul .f64 0 0x7FF0000000000000) = true ∧ fisnan .f64 (fdiv .f64 0 0x8000000000000000) = true
    ∧ fisnan .f64 (ffloor .f64 0xFFF0000000000001) = true
    ∧ fisnan .f64 (fsin .reference .f64 0x7FF0000000000000) = true := by decide +kernel

end Sys2Proof.Tests
end

/-! PROOFS. The two units share no data (00_scope R2, 10_state R26): what one unit's command did in a block, it does again in any
block that has the same parameters, the same unit and the same halt state, whatever the rest of that block holds. -/

namespace Sys2Proof.Machine

variable {s t x : State}

/-- The block `x`, with all that an oscillator command reads taken from `s`. -/
def State.withLfoOf (x s : State) : State := { x with cfg := s.cfg, lfo := s.lfo, halt := s.halt }

/-- The block `x`, with all that a delay-line command reads taken from `s`. -/
def State.withDlOf (x s : State) : State := { x with cfg := s.cfg, dl := s.dl, halt := s.halt }

theorem State.withLfoOf_eq_self (hc : s.cfg = x.cfg) (hl : s.lfo = x.lfo) (hh : s.halt = x.halt) : x.withLfoOf s = x := by
  rw [withLfoOf, hc, hl, hh]

theorem State.withDlOf_eq_self (hc : s.cfg = x.cfg) (hd : s.dl = x.dl) (hh : s.halt = x.halt) : x.withDlOf s = x := by
  rw [withDlOf, hc, hd, hh]

/-- `again` is the step from `s` to `t` replayed in another block: `graft` puts what the command reads of a state into that
block, and `again` gives the response the step gave and leaves what the step left. -/
def Replays (graft : State → State) (s t : State) (again : Result) : Prop :=
  ∃ r, t.waiting = s.waiting ++ [r] ∧ again = .next { graft t with waiting := (graft s).waiting ++ [r] }

/-! ### Each command, replayed -/

theorem execLfoNew_replays {f sr : Sample} (h : execLfoNew f sr s = .next t) :
    Replays x.withLfoOf s t (execLfoNew f sr (x.withLfoOf s)) := by
  rcases execLfoNew_next.mp h with ⟨hh, rfl⟩ | ⟨hh, ⟨hl, rfl⟩ | ⟨hl, hsr, rfl⟩ | ⟨hl, hsr, rfl⟩⟩ <;>
    refine ⟨_, rfl, execLfoNew_next.mpr ?_⟩
  · exact .inl ⟨hh, rfl⟩
  · exact .inr ⟨hh, .inl ⟨hl, rfl⟩⟩
  · exact .inr ⟨hh, .inr (.inl ⟨hl, hsr, rfl⟩)⟩
  · exact .inr ⟨hh, .inr (.inr ⟨hl, hsr, rfl⟩)⟩

theorem execLfoSetf_replays {f : Sample} (h : execLfoSetf f s = .next t) :
    Replays x.withLfoOf s t (execLfoSetf f (x.withLfoOf s)) := by
  rcases execLfoSetf_next.mp h with ⟨hh, rfl⟩ | ⟨hh, ⟨hl, rfl⟩ | ⟨o, hl, rfl⟩⟩ <;>
    refine ⟨_, rfl, execLfoSetf_next.mpr ?_⟩
  · exact .inl ⟨hh, rfl⟩
  · exact .inr ⟨hh, .inl ⟨hl, rfl⟩⟩
  · exact .inr ⟨hh, .inr ⟨o, hl, rfl⟩⟩

theorem execLfoNext_replays (h : execLfoNext s = .next t) :
    Replays x.withLfoOf s t (execLfoNext (x.withLfoOf s)) := by
  rcases execLfoNext_next.mp h with ⟨hh, rfl⟩ | ⟨hh, ⟨hl, rfl⟩ | ⟨o, hl, rfl⟩⟩ <;>
    refine ⟨_, rfl, execLfoNext_next.mpr ?_⟩
  · exact .inl ⟨hh, rfl⟩
  · exact .inr ⟨hh, .inl ⟨hl, rfl⟩⟩
  · exact .inr ⟨hh, .inr ⟨o, hl, rfl⟩⟩

theorem execDlNew_replays {n m : Index} (h : execDlNew n m s = .next t) :
    Replays x.withDlOf s t (execDlNew n m (x.withDlOf s)) := by
  rcases execDlNew_next.mp h with
    ⟨hh, rfl⟩ | ⟨hh, ⟨hd, rfl⟩ | ⟨hd, hn, rfl⟩ | ⟨hd, hn, hbig, rfl⟩ | ⟨hd, hn, hm, hnm, rfl⟩⟩ <;>
    refine ⟨_, rfl, execDlNew_next.mpr ?_⟩
  · exact .inl ⟨hh, rfl⟩
  · exact .inr ⟨hh, .inl ⟨hd, rfl⟩⟩
  · exact .inr ⟨hh, .inr (.inl ⟨hd, hn, rfl⟩)⟩
  · exact .inr ⟨hh, .inr (.inr (.inl ⟨hd, hn, hbig, rfl⟩))⟩
  · exact .inr ⟨hh, .inr (.inr (.inr ⟨hd, hn, hm, hnm, rfl⟩))⟩

theorem execDlWrite_replays {ch : Index} {y : Sample} (h : execDlWrite ch y s = .next t) :
    Replays x.withDlOf s t (execDlWrite ch y (x.withDlOf s)) := by
  rcases execDlWrite_next.mp h with
    ⟨hh, rfl⟩ | ⟨hh, ⟨hd, rfl⟩ | ⟨d, hd, ⟨hch, rfl⟩ | ⟨hch, cur, hcur, d', hst, rfl⟩⟩⟩ <;>
    refine ⟨_, rfl, execDlWrite_next.mpr ?_⟩
  · exact .inl ⟨hh, rfl⟩
  · exact .inr ⟨hh, .inl ⟨hd, rfl⟩⟩
  · exact .inr ⟨hh, .inr ⟨d, hd, .inl ⟨hch, rfl⟩⟩⟩
  · exact .inr ⟨hh, .inr ⟨d, hd, .inr ⟨hch, cur, hcur, d', hst, rfl⟩⟩⟩

theorem execDlRead_replays {ch k : Index} (h : execDlRead ch k s = .next t) :
    Replays x.withDlOf s t (execDlRead ch k (x.withDlOf s)) := by
  rcases execDlRead_next.mp h with
    ⟨hh, rfl⟩ | ⟨hh, ⟨hd, rfl⟩ | ⟨d, hd, ⟨hch, rfl⟩ | ⟨hch, cur, hcur, y, hy, rfl⟩⟩⟩ <;>
    refine ⟨_, rfl, execDlRead_next.mpr ?_⟩
  · exact .inl ⟨hh, rfl⟩
  · exact .inr ⟨hh, .inl ⟨hd, rfl⟩⟩
  · exact .inr ⟨hh, .inr ⟨d, hd, .inl ⟨hch, rfl⟩⟩⟩
  · exact .inr ⟨hh, .inr ⟨d, hd, .inr ⟨hch, cur, hcur, y, hy, rfl⟩⟩⟩

theorem execDlReadi_replays {ch : Index} {k : Sample} (h : execDlReadi ch k s = .next t) :
    Replays x.withDlOf s t (execDlReadi ch k (x.withDlOf s)) := by
  rcases execDlReadi_next.mp h with
    ⟨hh, rfl⟩ | ⟨hh, ⟨hd, rfl⟩ | ⟨d, hd, ⟨hch, rfl⟩ | ⟨hch, cur, hcur, ⟨hk, rfl⟩ | ⟨hk, i, hi, y1, hy1, y2, hy2, rfl⟩⟩⟩⟩ <;>
    refine ⟨_, rfl, execDlReadi_next.mpr ?_⟩
  · exact .inl ⟨hh, rfl⟩
  · exact .inr ⟨hh, .inl ⟨hd, rfl⟩⟩
  · exact .inr ⟨hh, .inr ⟨d, hd, .inl ⟨hch, rfl⟩⟩⟩
  · exact .inr ⟨hh, .inr ⟨d, hd, .inr ⟨hch, cur, hcur, .inl ⟨hk, rfl⟩⟩⟩⟩
  · exact .inr ⟨hh, .inr ⟨d, hd, .inr ⟨hch, cur, hcur, .inr ⟨hk, i, hi, y1, hy1, y2, hy2, rfl⟩⟩⟩⟩

/-! ### The commands of each unit, replayed -/

theorem exec_replays_of_lfo {i : Instr} (hi : operation i ∈ [Operation.lfoNew, .lfoSetf, .lfoNext])
    (h : exec i s = .next t) : Replays x.withLfoOf s t (exec i (x.withLfoOf s)) := by
  cases i with
  | lfoNew f sr => exact execLfoNew_replays h
  | lfoSetf f => exact execLfoSetf_replays h
  | lfoNext => exact execLfoNext_replays h
  | dlNew | dlWrite | dlRead | dlReadi => simp [operation] at hi

theorem exec_replays_of_dl {i : Instr} (hi : operation i ∈ [Operation.dlNew, .dlWrite, .dlRead, .dlReadi])
    (h : exec i s = .next t) : Replays x.withDlOf s t (exec i (x.withDlOf s)) := by
  cases i with
  | dlNew n m => exact execDlNew_replays h
  | dlWrite ch y => exact execDlWrite_replays h
  | dlRead ch k => exact execDlRead_replays h
  | dlReadi ch k => exact execDlReadi_replays h
  | lfoNew | lfoSetf | lfoNext => simp [operation] at hi

/-- Settles O22: the command in the second block is the command in the first, replayed over the second block. -/
theorem unitsShareNoData : Obligations.UnitsShareNoData := by
  unfold Obligations.UnitsShareNoData
  constructor
  · intro i s s' t t' hi hc hl hh h h'
    obtain ⟨r, hw, hr⟩ := exec_replays_of_lfo (x := s') hi h
    rw [State.withLfoOf_eq_self hc hl hh, h', Host.Outcome.next.injEq] at hr
    subst hr
    exact ⟨rfl, rfl, r, hw, rfl⟩
  · intro i s s' t t' hi hc hd hh h h'
    obtain ⟨r, hw, hr⟩ := exec_replays_of_dl (x := s') hi h
    rw [State.withDlOf_eq_self hc hd hh, h', Host.Outcome.next.injEq] at hr
    subst hr
    exact ⟨rfl, rfl, r, hw, rfl⟩

end Sys2Proof.Machine

/-! PROOFS. What a command does to each unit, said once (41_delay_line, 42_lfo); from it the invariants every step keeps
(10_state R15, R23 to R25) and what each command leaves unchanged (R26, R134). -/

namespace Sys2Proof.Machine

/-! ### A decoded command is well formed -/

theorem floatOf_fits (fl : Flen) (a : Slot) : fl.fits (floatOf fl a) := by
  cases fl with
  | f32 =>
    right
    rw [floatOf, BitVec.toNat_setWidth]
    exact (Nat.mod_le _ _).trans_lt (BitVec.isLt _)
  | f64 => left; rfl

theorem buildInstr_wf (fl : Flen) (o : Operation) (a b : Slot) : (buildInstr fl o a b).wf fl := by
  cases o with
  | dlNew | dlRead | lfoNext => trivial
  | dlWrite | dlReadi => exact floatOf_fits fl b
  | lfoNew => exact ⟨floatOf_fits fl a, floatOf_fits fl b⟩
  | lfoSetf => exact floatOf_fits fl a

theorem wf_of_decode {fl : Flen} {w : CommandWord} {i : Instr} (h : decode fl w = .ok i) : i.wf fl := by
  unfold decode at h
  split at h
  · cases h
  · rename_i o _
    split at h
    · split at h
      · cases h; exact buildInstr_wf fl o _ _
      · cases h
    · cases h

/-! ### What a command does to the units -/

/-- What command `i` can leave in the two units of a block with parameters `c` that held `dl` and `lfo`. -/
inductive UnitEffect (c : Config) (dl : Option DelayLine) (lfo : Option Oscillator) :
    Instr → Option DelayLine → Option Oscillator → Prop
  /-- Both units as they were: a read, a fault, or a command a halted block discards. -/
  | kept (i : Instr) : UnitEffect c dl lfo i dl lfo
  /-- `DL.NEW` completes (R90). -/
  | dlMade {n m : Index} (hd : dl = none) (hn : n ≠ 0#32) (hm : m.toNat ≤ c.maxch)
      (hnm : n.toNat * m.toNat ≤ c.depth) : UnitEffect c dl lfo (.dlNew n m) (some (freshDelayLine n m)) lfo
  /-- `DL.WRITE` completes (R91). -/
  | dlWritten {ch cur : Index} {x : Sample} {d d' : DelayLine} (hd : dl = some d) (hch : ch.toNat < d.dlm.toNat)
      (hcur : d.wcur[ch.toNat]? = some cur) (hst : storeWord d (slotAddress d ch cur.toNat) x = some d') :
      UnitEffect c dl lfo (.dlWrite ch x) (some (setCursor d' ch (nextCursor d cur))) lfo
  /-- `LFO.NEW` completes (R110). -/
  | lfoMade {f sr : Sample} (hl : lfo = none) (hsr : fgt c.flen sr zeroT = true) :
      UnitEffect c dl lfo (.lfoNew f sr) dl
        (some { freq := f, srate := sr, phase := zeroT, inc := fdiv c.flen f sr })
  /-- `LFO.SETF` completes (R111). -/
  | lfoRetuned {f : Sample} {o : Oscillator} (hl : lfo = some o) :
      UnitEffect c dl lfo (.lfoSetf f) dl (some { o with freq := f, inc := fdiv c.flen f o.srate })
  /-- `LFO.NEXT` completes (R112). -/
  | lfoAdvanced {o : Oscillator} (hl : lfo = some o) :
      UnitEffect c dl lfo .lfoNext dl (some { o with phase := nextPhase c o })

variable {s t : State} {i : Instr}

theorem exec_effect (h : exec i s = .next t) : UnitEffect s.cfg s.dl s.lfo i t.dl t.lfo := by
  cases i with
  | dlNew n m =>
    rcases execDlNew_next.mp h with
      ⟨-, rfl⟩ | ⟨-, ⟨-, rfl⟩ | ⟨-, -, rfl⟩ | ⟨-, -, -, rfl⟩ | ⟨hd, hn, hm, hnm, rfl⟩⟩
    exacts [.kept _, .kept _, .kept _, .kept _, .dlMade hd hn hm hnm]
  | dlWrite ch x =>
    rcases execDlWrite_next.mp h with
      ⟨-, rfl⟩ | ⟨-, ⟨-, rfl⟩ | ⟨d, hd, ⟨-, rfl⟩ | ⟨hch, cur, hcur, d', hst, rfl⟩⟩⟩
    exacts [.kept _, .kept _, .kept _, .dlWritten hd hch hcur hst]
  | dlRead ch k =>
    rcases execDlRead_next.mp h with ⟨-, rfl⟩ | ⟨-, ⟨-, rfl⟩ | ⟨_, -, ⟨-, rfl⟩ | ⟨-, _, -, _, -, rfl⟩⟩⟩
    all_goals exact .kept _
  | dlReadi ch x =>
    rcases execDlReadi_next.mp h with
      ⟨-, rfl⟩ | ⟨-, ⟨-, rfl⟩ | ⟨_, -, ⟨-, rfl⟩ | ⟨-, _, -, ⟨-, rfl⟩ | ⟨-, _, -, _, -, _, -, rfl⟩⟩⟩⟩
    all_goals exact .kept _
  | lfoNew f sr =>
    rcases execLfoNew_next.mp h with ⟨-, rfl⟩ | ⟨-, ⟨-, rfl⟩ | ⟨-, -, rfl⟩ | ⟨hl, hsr, rfl⟩⟩
    exacts [.kept _, .kept _, .kept _, .lfoMade hl hsr]
  | lfoSetf f =>
    rcases execLfoSetf_next.mp h with ⟨-, rfl⟩ | ⟨-, ⟨-, rfl⟩ | ⟨o, hl, rfl⟩⟩
    exacts [.kept _, .kept _, .lfoRetuned hl]
  | lfoNext =>
    rcases execLfoNext_next.mp h with ⟨-, rfl⟩ | ⟨-, ⟨-, rfl⟩ | ⟨o, hl, rfl⟩⟩
    exacts [.kept _, .kept _, .lfoAdvanced hl]

/-- What no command writes, and when it may leave the halt bit changed (R26, R134). -/
theorem exec_frame (h : exec i s = .next t) :
    t.cfg = s.cfg ∧ t.pending = s.pending ∧ t.delivered = s.delivered ∧ t.dropped = s.dropped
      ∧ (t.halt = s.halt ∨ (s.halt = none ∧ t.dl = s.dl ∧ t.lfo = s.lfo)) := by
  rcases exec_outcome h with ⟨-, rfl⟩ | ⟨hh, ⟨c, v, rfl⟩ | ⟨d, o, v, rfl⟩⟩
  · exact ⟨rfl, rfl, rfl, rfl, .inl rfl⟩
  · exact ⟨rfl, rfl, rfl, rfl, .inr ⟨hh, rfl, rfl⟩⟩
  · exact ⟨rfl, rfl, rfl, rfl, .inl rfl⟩

/-- A command that writes a unit completes: it leaves the block running (R134, R144). -/
theorem exec_writes_complete (h : exec i s = .next t) : (t.dl = s.dl ∧ t.lfo = s.lfo) ∨ t.halt = none := by
  rcases exec_outcome h with ⟨-, rfl⟩ | ⟨hh, ⟨c, v, rfl⟩ | ⟨d, o, v, rfl⟩⟩
  exacts [.inl ⟨rfl, rfl⟩, .inl ⟨rfl, rfl⟩, .inr hh]

/-- Everything a step can do to the parameters and the units: keep them, run a well-formed command, or reset. -/
theorem step_units (h : step s = .next t) : t.cfg = s.cfg ∧
    ((t.dl = s.dl ∧ t.lfo = s.lfo) ∨
     (∃ i, i.wf s.cfg.flen ∧ UnitEffect s.cfg s.dl s.lfo i t.dl t.lfo) ∨
     ((∃ rest, s.pending = .reset :: rest) ∧ t.dl = none ∧ t.lfo = none)) := by
  rcases step_next.mp h with ⟨-, rfl⟩ | ⟨rest, hp, rfl⟩ | ⟨rest, -, rfl⟩ | ⟨w, rest, -, ha⟩
  · exact ⟨rfl, .inl ⟨rfl, rfl⟩⟩
  · exact ⟨rfl, .inr (.inr ⟨⟨rest, hp⟩, rfl, rfl⟩)⟩
  · simp
  · rcases acceptWord_next.mp ha with ⟨-, rfl⟩ | ⟨-, ⟨_, -, rfl⟩ | ⟨i, hi, he⟩⟩
    · exact ⟨rfl, .inl ⟨rfl, rfl⟩⟩
    · exact ⟨rfl, .inl ⟨rfl, rfl⟩⟩
    · obtain ⟨hc, -⟩ := exec_frame he
      have heff := exec_effect he
      exact ⟨hc, .inr (.inl ⟨i, wf_of_decode hi, heff⟩)⟩

/-! ### Invariants -/

theorem nextPhase_fits {c : Config} {o : Oscillator} (hp : c.flen.fits o.phase) (hi : c.flen.fits o.inc) :
    c.flen.fits (nextPhase c o) := by
  have hadd := fadd_fits hp hi
  unfold nextPhase wrapPhase
  split
  · split
    · exact zeroT_fits
    · exact hadd
  · exact fsub_fits hadd (ffloor_fits hadd)

/-- A well-formed command keeps R23 of the delay line and R24 of the oscillator. -/
theorem UnitEffect.keeps_inv {c : Config} {dl dl' : Option DelayLine} {lfo lfo' : Option Oscillator}
    (h : UnitEffect c dl lfo i dl' lfo') (hi : i.wf c.flen) (hdl : ∀ d ∈ dl, RingInv c d) (hlfo : ∀ o ∈ lfo, OscInv c o) :
    (∀ d ∈ dl', RingInv c d) ∧ ∀ o ∈ lfo', OscInv c o := by
  cases h with
  | kept => exact ⟨hdl, hlfo⟩
  | dlMade _ hn hm hnm =>
    refine ⟨?_, hlfo⟩
    rintro _ ⟨⟩
    exact fresh_ringInv hn hm hnm
  | dlWritten hd hch hcur hst =>
    refine ⟨?_, hlfo⟩
    rintro _ ⟨⟩
    have hr := hdl _ hd
    rw [(write_in_store hr hch hcur _).1] at hst
    cases hst
    exact write_ringInv hr hch hcur hi
  | lfoMade _ hsr =>
    refine ⟨hdl, ?_⟩
    rintro _ ⟨⟩
    exact ⟨hsr, rfl, hi.1, hi.2, zeroT_fits, fdiv_fits⟩
  | lfoRetuned hl =>
    refine ⟨hdl, ?_⟩
    rintro _ ⟨⟩
    obtain ⟨hsr, -, -, hs, hp, -⟩ := hlfo _ hl
    exact ⟨hsr, rfl, hi, hs, hp, fdiv_fits⟩
  | lfoAdvanced hl =>
    refine ⟨hdl, ?_⟩
    rintro _ ⟨⟩
    obtain ⟨hsr, hinc, hf, hs, hp, hic⟩ := hlfo _ hl
    exact ⟨hsr, hinc, hf, hs, nextPhase_fits hp hic, hic⟩

/-- Settles O18: what a well-formed command does to the units keeps their invariants, and a decoded command is well formed. -/
theorem stepKeepsInvariant : Obligations.StepKeepsInvariant := by
  intro s t ⟨hcfg, hdl, hlfo⟩ h
  obtain ⟨hc, hu⟩ := step_units h
  unfold StateInv
  rw [hc]
  rcases hu with ⟨hd, hl⟩ | ⟨i, hi, he⟩ | ⟨-, hd, hl⟩
  · rw [hd, hl]; exact ⟨hcfg, hdl, hlfo⟩
  · exact ⟨hcfg, he.keeps_inv hi hdl hlfo⟩
  · rw [hd, hl]; exact ⟨hcfg, by simp, by simp⟩

/-- Settles O19: after reset no unit is there to constrain. -/
theorem resetMeetsInvariant : Obligations.ResetMeetsInvariant := by
  have h : ∀ c : Config, c.wf → StateInv (State.resetOf c) := fun c hc =>
    ⟨hc, by simp [State.resetOf], by simp [State.resetOf]⟩
  exact ⟨h, h Config.standard (by decide)⟩

/-! ### What is never rewritten -/

/-- No command writes the sizes of a constructed delay line, or removes it. -/
theorem UnitEffect.sizes {c : Config} {d : DelayLine} {dl' : Option DelayLine} {lfo lfo' : Option Oscillator}
    (h : UnitEffect c (some d) lfo i dl' lfo') : ∃ d', dl' = some d' ∧ d'.dln = d.dln ∧ d'.dlm = d.dlm := by
  cases h with
  | kept | lfoMade | lfoRetuned | lfoAdvanced => exact ⟨d, rfl, rfl, rfl⟩
  | dlMade hd => cases hd
  | dlWritten hd _ _ hst =>
    cases hd
    obtain ⟨-, rfl⟩ := storeWord_some.mp hst
    exact ⟨_, rfl, rfl, rfl⟩

/-- No command writes the sample rate of a constructed oscillator, or removes it. -/
theorem UnitEffect.srate {c : Config} {dl dl' : Option DelayLine} {o : Oscillator} {lfo' : Option Oscillator}
    (h : UnitEffect c dl (some o) i dl' lfo') : ∃ o', lfo' = some o' ∧ o'.srate = o.srate := by
  cases h with
  | kept | dlMade | dlWritten => exact ⟨o, rfl, rfl⟩
  | lfoMade hl => cases hl
  | lfoRetuned hl => cases hl; exact ⟨_, rfl, rfl⟩
  | lfoAdvanced hl => cases hl; exact ⟨_, rfl, rfl⟩

/-- A step keeps a constructed delay line, with its sizes, or resets it. -/
theorem step_sizes {d : DelayLine} (h : step s = .next t) (hd : s.dl = some d) :
    (∃ d', t.dl = some d' ∧ d'.dln = d.dln ∧ d'.dlm = d.dlm) ∨
      ((∃ rest, s.pending = .reset :: rest) ∧ t.dl = none) := by
  rcases (step_units h).2 with ⟨ht, -⟩ | ⟨i, -, he⟩ | ⟨hp, ht, -⟩
  · exact .inl ⟨d, ht.trans hd, rfl, rfl⟩
  · rw [hd] at he; exact .inl he.sizes
  · exact .inr ⟨hp, ht⟩

/-- A step keeps a constructed oscillator, with its sample rate, or resets it. -/
theorem step_srate {o : Oscillator} (h : step s = .next t) (ho : s.lfo = some o) :
    (∃ o', t.lfo = some o' ∧ o'.srate = o.srate) ∨ ((∃ rest, s.pending = .reset :: rest) ∧ t.lfo = none) := by
  rcases (step_units h).2 with ⟨-, ht⟩ | ⟨i, -, he⟩ | ⟨hp, -, ht⟩
  · exact .inl ⟨o, ht.trans ho, rfl⟩
  · rw [ho] at he; exact .inl he.srate
  · exact .inr ⟨hp, ht⟩

/-- Settles O16: a step keeps the sizes of a constructed unit or resets it. -/
theorem sizesNeverRewritten : Obligations.SizesNeverRewritten := by
  intro s t h
  refine ⟨(step_units h).1, fun d d' hd hd' => ?_, fun o o' ho ho' => ?_⟩
  · obtain ⟨e, he, hsz⟩ | ⟨-, hn⟩ := step_sizes h hd
    · rw [hd'] at he; cases he; exact hsz
    · rw [hd'] at hn; cases hn
  · obtain ⟨e, he, hsr⟩ | ⟨-, hn⟩ := step_srate h ho
    · rw [ho'] at he; cases he; exact hsr
    · rw [ho'] at hn; cases hn

/-- Only `DL.NEW` makes a delay line. -/
theorem UnitEffect.dl_of_none {c : Config} {dl' : Option DelayLine} {lfo lfo' : Option Oscillator}
    (h : UnitEffect c none lfo i dl' lfo') : dl' = none ∨ ∃ n m, i = .dlNew n m := by
  cases h with
  | kept | lfoMade | lfoRetuned | lfoAdvanced => exact .inl rfl
  | dlMade => exact .inr ⟨_, _, rfl⟩
  | dlWritten hd => cases hd

/-- Only `LFO.NEW` makes an oscillator. -/
theorem UnitEffect.lfo_of_none {c : Config} {dl dl' : Option DelayLine} {lfo' : Option Oscillator}
    (h : UnitEffect c dl none i dl' lfo') : lfo' = none ∨ ∃ f sr, i = .lfoNew f sr := by
  cases h with
  | kept | dlMade | dlWritten => exact .inl rfl
  | lfoMade => exact .inr ⟨_, _, rfl⟩
  | lfoRetuned hl => cases hl
  | lfoAdvanced hl => cases hl

/-- Settles O17: only its `NEW` makes an absent unit, a command that writes completes, and only a reset removes a unit. -/
theorem onlyNewConstructs : Obligations.OnlyNewConstructs := by
  refine ⟨fun i s t h hs ht => ?_, fun i s t h hs ht => ?_, fun s t h hu => ?_⟩
  · have he := exec_effect h
    rw [hs] at he
    exact ⟨he.dl_of_none.resolve_left ht, (exec_writes_complete h).resolve_left fun hk => ht (hk.1.trans hs)⟩
  · have he := exec_effect h
    rw [hs] at he
    exact ⟨he.lfo_of_none.resolve_left ht, (exec_writes_complete h).resolve_left fun hk => ht (hk.2.trans hs)⟩
  · rcases hu with ⟨hs, ht⟩ | ⟨hs, ht⟩
    · obtain ⟨d, hd⟩ := Option.ne_none_iff_exists'.mp hs
      obtain ⟨e, he, -⟩ | ⟨hp, -⟩ := step_sizes h hd
      · rw [ht] at he; cases he
      · exact hp
    · obtain ⟨o, ho⟩ := Option.ne_none_iff_exists'.mp hs
      obtain ⟨e, he, -⟩ | ⟨hp, -⟩ := step_srate h ho
      · rw [ht] at he; cases he
      · exact hp

/-! ### Frames of the commands -/

section Frames

variable {c : Config} {dl dl' : Option DelayLine} {lfo lfo' : Option Oscillator}

/-- Only `DL.NEW` and `DL.WRITE` write the delay line (R26). -/
theorem UnitEffect.dl_eq (h : UnitEffect c dl lfo i dl' lfo') (hi : operation i ∉ [Operation.dlNew, .dlWrite]) :
    dl' = dl := by
  cases h with
  | kept | lfoMade | lfoRetuned | lfoAdvanced => rfl
  | dlMade | dlWritten => simp [operation] at hi

/-- Only the oscillator's own commands write the oscillator (R26). -/
theorem UnitEffect.lfo_eq (h : UnitEffect c dl lfo i dl' lfo')
    (hi : operation i ∉ [Operation.lfoNew, .lfoSetf, .lfoNext]) : lfo' = lfo := by
  cases h with
  | kept | dlMade | dlWritten => rfl
  | lfoMade | lfoRetuned | lfoAdvanced => simp [operation] at hi

/-- `DL.NEW` leaves a constructed delay line (R137). -/
theorem UnitEffect.dlNew_frame {n m : Index} (h : UnitEffect c dl lfo (.dlNew n m) dl' lfo') (hs : dl.isSome = true) :
    dl' = dl := by
  cases h with
  | kept => rfl
  | dlMade hd => simp [hd] at hs

/-- What a write leaves of the delay line: all but the cursor of its channel and the word at that cursor (R91). -/
theorem UnitEffect.dlWrite_frame {d d' : DelayLine} {ch : Index} {x : Sample}
    (h : UnitEffect c (some d) lfo (.dlWrite ch x) (some d') lfo') :
    (∀ k, k ≠ ch.toNat → d'.wcur[k]? = d.wcur[k]?) ∧
    ∀ j : Nat, (j : Int) ≠ slotAddress d ch (cursorOf d ch) → memRead d'.store j = memRead d.store j := by
  generalize hx : some d' = dl' at h
  cases h with
  | kept => cases hx; exact ⟨fun _ _ => rfl, fun _ _ => rfl⟩
  | @dlWritten _ cur _ _ _ hd _ hcur hst =>
    cases hd
    cases hx
    obtain ⟨⟨h0, -⟩, rfl⟩ := storeWord_some.mp hst
    have hcur' : cursorOf d ch = cur.toNat := by simp [cursorOf, List.getD, hcur]
    refine ⟨fun k hk => by simp [List.getElem?_set_ne (Ne.symm hk)], fun j hj => ?_⟩
    rw [setCursor_store, memRead_memWrite_other]
    rw [hcur'] at hj
    omega

/-- `DL.WRITE` neither makes nor removes a delay line. -/
theorem UnitEffect.dlWrite_isSome {ch : Index} {x : Sample} (h : UnitEffect c dl lfo (.dlWrite ch x) dl' lfo') :
    dl'.isSome = dl.isSome := by
  cases h with
  | kept => rfl
  | dlWritten hd => simp [hd]

/-- The registers of a constructed oscillator that each of its commands leaves (R110 to R112). -/
theorem UnitEffect.lfo_frame {o o' : Oscillator} (h : UnitEffect c dl (some o) i dl' (some o')) :
    (operation i = .lfoNew → o' = o)
    ∧ (operation i = .lfoSetf → o'.srate = o.srate ∧ o'.phase = o.phase)
    ∧ (operation i = .lfoNext → o'.freq = o.freq ∧ o'.srate = o.srate ∧ o'.inc = o.inc) := by
  generalize hx : some o' = lfo' at h
  cases h with
  | kept | dlMade | dlWritten => cases hx; simp
  | lfoMade hl => cases hl
  | lfoRetuned hl => cases hl; cases hx; simp [operation]
  | lfoAdvanced hl => cases hl; cases hx; simp [operation]

end Frames

/-- Settles O33: the frame of every command, and a constructed delay line is not made again. -/
theorem frameDlNew : Obligations.FrameDlNew := by
  intro n m s t h
  obtain ⟨hc, hp, hdv, hdr, hh⟩ := exec_frame h
  have he := exec_effect h
  exact ⟨hc, he.lfo_eq (by simp [operation]), hp, hdv, hdr, hh.imp_right fun ⟨h0, hd, _⟩ => ⟨h0, hd⟩, he.dlNew_frame⟩

/-- Settles O34: the frame of every command, and what a write leaves of the delay line. -/
theorem frameDlWrite : Obligations.FrameDlWrite := by
  intro ch x s t h
  obtain ⟨hc, hp, hdv, hdr, hh⟩ := exec_frame h
  have he := exec_effect h
  refine ⟨hc, he.lfo_eq (by simp [operation]), hp, hdv, hdr, he.dlWrite_isSome,
    hh.imp_right fun ⟨h0, hd, _⟩ => ⟨h0, hd⟩, fun d d' hd hd' => ?_⟩
  rw [hd, hd'] at he
  obtain ⟨e, ⟨⟩, hn, hm⟩ := he.sizes
  obtain ⟨hw, hst⟩ := he.dlWrite_frame
  exact ⟨hn, hm, hw, hst⟩

/-- Settles O35: a read is none of the commands that write a unit. -/
theorem frameDelayedReads : Obligations.FrameDelayedReads := by
  intro i s t hi h
  obtain ⟨hc, hp, hdv, hdr, hh⟩ := exec_frame h
  have he := exec_effect h
  have hd : t.dl = s.dl := he.dl_eq (by revert hi; cases operation i <;> decide)
  have hl : t.lfo = s.lfo := he.lfo_eq (by revert hi; cases operation i <;> decide)
  exact ⟨hc, hd, hl, hp, hdv, hdr, hh.imp_right And.left⟩

/-- Settles O43: each oscillator command writes only the registers its effect names. -/
theorem frameOscillatorCommands : Obligations.FrameOscillatorCommands := by
  intro i s t hi h
  obtain ⟨hc, hp, hdv, hdr, hh⟩ := exec_frame h
  have he := exec_effect h
  have hd : t.dl = s.dl := he.dl_eq (by revert hi; cases operation i <;> decide)
  refine ⟨hc, hd, hp, hdv, hdr, hh.imp_right fun ⟨h0, _, hl⟩ => ⟨h0, hl⟩, fun o o' ho ho' => ?_⟩
  rw [ho, ho'] at he
  exact he.lfo_frame

/-! ### The views of the state -/

/-- Every bit of `STATUS` (R15). -/
theorem statusReg_getLsbD (s : State) (j : Nat) : (statusReg s).getLsbD j =
    if j = 0 then dlvBit s else if j = 1 then lfvBit s else if j = 2 then haltBit s
    else decide (8 ≤ j) && (fcauseField s).getLsbD (j - 8) := by
  change (0#16 ++ fcauseField s ++ 0#5 ++ BitVec.ofBool (haltBit s) ++ BitVec.ofBool (lfvBit s)
    ++ BitVec.ofBool (dlvBit s) : BitVec (16 + 8 + 5 + 1 + 1 + 1)).getLsbD j = _
  simp only [BitVec.getLsbD_append, BitVec.getLsbD_ofBool, BitVec.getLsbD_zero]
  rcases j with _ | _ | _ | j
  · simp
  · simp
  · simp
  · have hj : j + 1 + 1 + 1 - 8 = j - 5 := by omega
    by_cases h5 : j < 5
    · simp [h5, show ¬ 5 ≤ j by omega]
    · by_cases h8 : j - 5 < 8
      · simp [h5, h8, hj, show 5 ≤ j by omega]
      · simp [h5, h8, hj, BitVec.getLsbD_of_ge _ _ (Nat.not_lt.mp h8)]

theorem causeCode_ne_zero (c : Cause) : causeCode c ≠ 0x00#8 := by cases c <;> decide

/-- `FCAUSE` is 0x00 exactly while the block runs (R15). -/
theorem fcauseField_ne_zero_iff (s : State) : fcauseField s ≠ 0x00#8 ↔ haltBit s = true := by
  unfold fcauseField haltBit
  cases s.halt with
  | none => simp
  | some f => simp [causeCode_ne_zero]

/-- Settles O21: after reset every field of `STATUS` is that of an absent unit or of a running block. -/
theorem resetLeaves : Obligations.ResetLeaves := by
  intro c
  refine ⟨?_, rfl, rfl, rfl⟩
  simp [statusReg, fcauseField, haltBit, lfvBit, dlvBit, State.resetOf]

/-- Settles O23: the fields are read off the bits of `STATUS`. -/
theorem statusFieldLayout : Obligations.StatusFieldLayout := by
  intro s
  have hhalt : (statusReg s).getLsbD 2 = haltBit s := statusReg_getLsbD s 2
  have hcause : (statusReg s).extractLsb' 8 8 = fcauseField s := by
    ext i hi
    simp [statusReg_getLsbD, show 8 + i ≠ 1 by omega, show 8 + i ≠ 2 by omega, BitVec.getLsbD_eq_getElem hi]
  refine ⟨statusReg_getLsbD s 0, statusReg_getLsbD s 1, hhalt, ?_, hcause, ?_, ?_, fun h => ?_, fun f h => ?_⟩
  · ext i hi
    simp [statusReg_getLsbD, show 3 + i ≠ 1 by omega, show 3 + i ≠ 2 by omega, show ¬ 8 ≤ 3 + i by omega]
  · ext i hi
    simp [statusReg_getLsbD, show 16 + i ≠ 1 by omega, show 16 + i ≠ 2 by omega,
      BitVec.getLsbD_of_ge (fcauseField s) (16 + i - 8) (by omega)]
  · rw [hhalt, hcause, fcauseField_ne_zero_iff]
  · simp [fvalReg, h]
  · simp [fvalReg, h]

end Sys2Proof.Machine

/-! PROOFS. The bounds of the phase after `LFO.NEXT` (10_state R24, 42_lfo R113, R114). For `FRAC`: the exact difference of a
finite word and its floor lies in `[0, 1)`, and rounding keeps it in `[0, 1]`. -/

namespace Sys2Proof.Machine

variable {fl : Flen}

/-! ### Rounding to an integer (R67) -/

theorem nearestEven_of_dvd {num den : Nat} (h : den ∣ num) : nearestEven num den = num / den := by
  have hr : num % den = 0 := Nat.mod_eq_zero_of_dvd h
  rcases Nat.eq_zero_or_pos den with rfl | hd
  · simpa [nearestEven] using h
  · simp [nearestEven, hr, hd.ne]

/-- Rounding does not pass an integer. -/
theorem nearestEven_le {num den k : Nat} (hd : 0 < den) (h : num ≤ k * den) : nearestEven num den ≤ k := by
  have hq : num / den ≤ k := Nat.div_le_of_le_mul (by rwa [Nat.mul_comm])
  have hr : num / den = k → num % den = 0 := fun hk => by
    have := Nat.div_add_mod num den
    rw [hk, Nat.mul_comm] at this
    omega
  unfold nearestEven
  simp only
  split <;> omega

/-! ### Rounding to a word, in units (R67) -/

/-- The spacing, in units, of the words near `num / den` units. -/
def roundSpacing (fl : Flen) (num den : Nat) : Nat := 2 ^ (Nat.log2 (num / den) - fracBits fl)

/-- The units that `roundT` rounds `num / den` units to, before it looks for an overflow. -/
def roundedUnits (fl : Flen) (num den : Nat) : Nat :=
  nearestEven num (den * roundSpacing fl num den) * roundSpacing fl num den

theorem roundT_eq (sign : Bool) (num den : Nat) : roundT fl sign num den =
    if 2 ^ (emax fl + 1) * oneUnits fl ≤ roundedUnits fl num den then infOf fl sign
    else packWord fl sign (encodeMag fl (roundedUnits fl num den)) := rfl

theorem roundSpacing_pos (num den : Nat) : 0 < roundSpacing fl num den := Nat.two_pow_pos _

/-- The rounded units are at most `t + 1` bits, or the next power of two, times a power of two. -/
theorem roundedUnits_form {num den : Nat} (hd : 0 < den) :
    ∃ q e, q < 2 ^ (fracBits fl + 1) ∧ roundedUnits fl num den = q * 2 ^ e := by
  obtain ⟨e, he⟩ : ∃ e, e = Nat.log2 (num / den) - fracBits fl := ⟨_, rfl⟩
  have hsp : roundSpacing fl num den = 2 ^ e := by rw [roundSpacing, he]
  have hdiv : num / den < 2 ^ (fracBits fl + 1) * 2 ^ e := by
    rw [← pow_add]
    exact Nat.lt_log2_self.trans_le (Nat.pow_le_pow_right (by omega) (by omega))
  have hnum : num ≤ 2 ^ (fracBits fl + 1) * (den * 2 ^ e) := by
    have := (Nat.div_lt_iff_lt_mul hd).mp hdiv
    calc num ≤ 2 ^ (fracBits fl + 1) * 2 ^ e * den := this.le
      _ = _ := by ring
  have hle := nearestEven_le (Nat.mul_pos hd (Nat.two_pow_pos e)) hnum
  rw [roundedUnits, hsp]
  rcases hle.lt_or_eq with hlt | heq
  · exact ⟨_, e, hlt, rfl⟩
  · exact ⟨2 ^ fracBits fl, e + 1, Nat.pow_lt_pow_right (by omega) (by omega), by rw [heq]; ring⟩

/-- Below the overflow threshold `roundT` answers the finite word of the rounded units. -/
theorem roundT_of_lt {sign : Bool} {num den : Nat} (hd : 0 < den)
    (h : roundedUnits fl num den < 2 ^ (emax fl + 1) * oneUnits fl) :
    isFinite fl (roundT fl sign num den) = true ∧ signBit fl (roundT fl sign num den) = sign
      ∧ magUnits fl (roundT fl sign num den) = roundedUnits fl num den := by
  obtain ⟨q, e, hq, hm⟩ := roundedUnits_form (fl := fl) (num := num) hd
  rw [roundT_eq, if_neg (Nat.not_le.mpr h)]
  exact ⟨isFinite_encodeMag h, signBit_packWord (encodeMag_lt_sign h),
    magUnits_encodeMag h (by rw [hm]; exact log2_pow_dvd hq)⟩

/-- Rounding does not pass a power of two above. -/
theorem roundedUnits_le_two_pow {num k : Nat} (h : num ≤ 2 ^ k) : roundedUnits fl num 1 ≤ 2 ^ k := by
  rcases Nat.eq_zero_or_pos num with rfl | hpos
  · simp [roundedUnits, nearestEven_of_dvd]
  have hk : Nat.log2 num - fracBits fl ≤ k := by
    have : Nat.log2 num < k + 1 := (Nat.log2_lt (by omega)).mpr (by rw [pow_succ]; omega)
    omega
  have hsplit : 2 ^ k = 2 ^ (k - (Nat.log2 num - fracBits fl)) * roundSpacing fl num 1 := by
    rw [roundSpacing, Nat.div_one, ← pow_add, Nat.sub_add_cancel hk]
  rw [roundedUnits, Nat.one_mul]
  rw [hsplit] at h ⊢
  exact Nat.mul_le_mul_right _ (nearestEven_le (roundSpacing_pos num 1) h)

/-- A number of at most `t + 1` bits times a power of two is not rounded. -/
theorem roundedUnits_of_short {q e : Nat} (hq : q < 2 ^ (fracBits fl + 1)) :
    roundedUnits fl (q * 2 ^ e) 1 = q * 2 ^ e := by
  have hdvd : roundSpacing fl (q * 2 ^ e) 1 ∣ q * 2 ^ e := by
    rw [roundSpacing, Nat.div_one]; exact log2_pow_dvd hq
  rw [roundedUnits, Nat.one_mul, nearestEven_of_dvd hdvd, Nat.div_mul_cancel hdvd]

/-! ### Negation (R71) -/

theorem signBit_fneg (x : Sample) : signBit fl (fneg fl x) = !signBit fl x := by
  cases fl <;> simp [signBit, fneg, flenBits]

/-- Negation leaves the bits below the sign. -/
theorem fneg_toNat_mod (x : Sample) : (fneg fl x).toNat % 2 ^ (flenBits fl - 1) = x.toNat % 2 ^ (flenBits fl - 1) := by
  have h : (fneg fl x).toNat = x.toNat ^^^ 2 ^ (flenBits fl - 1) := by cases fl <;> simp [fneg, flenBits]
  rw [h, Nat.xor_mod_two_pow]
  simp

theorem fracField_eq_mod (x : Sample) : fracField fl x = x.toNat % 2 ^ (flenBits fl - 1) % 2 ^ fracBits fl := by
  rw [fracField, Nat.mod_mod_of_dvd]
  exact pow_dvd_pow 2 (by rw [flenBits_eq]; omega)

theorem expField_eq_mod (x : Sample) : expField fl x = x.toNat % 2 ^ (flenBits fl - 1) / 2 ^ fracBits fl := by
  rw [expField, flenBits_eq, Nat.add_sub_cancel, Nat.add_comm, pow_add, Nat.mod_mul_right_div_self]

@[simp] theorem fracField_fneg (x : Sample) : fracField fl (fneg fl x) = fracField fl x := by
  rw [fracField_eq_mod, fneg_toNat_mod, ← fracField_eq_mod]

@[simp] theorem expField_fneg (x : Sample) : expField fl (fneg fl x) = expField fl x := by
  rw [expField_eq_mod, fneg_toNat_mod, ← expField_eq_mod]

@[simp] theorem isFinite_fneg (x : Sample) : isFinite fl (fneg fl x) = isFinite fl x := by simp [isFinite]

@[simp] theorem valUnits_fneg (x : Sample) : valUnits fl (fneg fl x) = -valUnits fl x := by
  have hm : magUnits fl (fneg fl x) = magUnits fl x := by simp [magUnits]
  unfold valUnits
  rw [signBit_fneg, hm]
  cases signBit fl x <;> simp

/-! ### Sums and differences of finite words (R70, R71) -/

theorem isFinite_zeroOf (sign : Bool) : isFinite fl (zeroOf fl sign) = true := by cases fl <;> cases sign <;> decide

theorem valUnits_zeroOf (sign : Bool) : valUnits fl (zeroOf fl sign) = 0 := by cases fl <;> cases sign <;> decide

/-- The sum of finite words is a zero where the exact sum is, and else the exact sum rounded. -/
theorem fadd_of_isFinite {a b : Sample} (ha : isFinite fl a = true) (hb : isFinite fl b = true) :
    (valUnits fl a + valUnits fl b = 0 ∧ ∃ sign, fadd fl a b = zeroOf fl sign) ∨
    (valUnits fl a + valUnits fl b ≠ 0 ∧ fadd fl a b =
      roundT fl (decide (valUnits fl a + valUnits fl b < 0)) (valUnits fl a + valUnits fl b).natAbs 1) := by
  unfold fadd
  simp only [fisnan_of_isFinite ha, fisnan_of_isFinite hb, fisinf_of_isFinite ha, fisinf_of_isFinite hb,
    Bool.or_self, Bool.false_and, Bool.false_eq_true, if_false]
  split
  · rename_i hz
    obtain ⟨hza, hzb⟩ := Bool.and_eq_true_iff.mp hz
    exact .inl ⟨by rw [valUnits_of_fiszero hza, valUnits_of_fiszero hzb]; rfl, _, rfl⟩
  · split
    · rename_i h0; exact .inl ⟨h0, _, rfl⟩
    · rename_i h0; exact .inr ⟨h0, rfl⟩

/-- A difference of finite words that is `m` units, not below 0, is the finite word of those units rounded. -/
theorem fsub_of_nonneg {a b : Sample} {m : Nat} (ha : isFinite fl a = true) (hb : isFinite fl b = true)
    (hm : valUnits fl a - valUnits fl b = m) (hlt : roundedUnits fl m 1 < 2 ^ (emax fl + 1) * oneUnits fl) :
    isFinite fl (fsub fl a b) = true ∧ valUnits fl (fsub fl a b) = roundedUnits fl m 1 := by
  have hb' : isFinite fl (fneg fl b) = true := by rw [isFinite_fneg, hb]
  have hz : valUnits fl a + valUnits fl (fneg fl b) = m := by rw [valUnits_fneg, ← hm]; ring
  rw [fsub]
  rcases fadd_of_isFinite ha hb' with ⟨h0, sign, hs⟩ | ⟨-, hs⟩
  · have hm0 : m = 0 := by omega
    rw [hs, isFinite_zeroOf, valUnits_zeroOf, hm0]
    simp [roundedUnits, nearestEven_of_dvd]
  · rw [hz, Int.natAbs_natCast, decide_eq_false (by omega)] at hs
    obtain ⟨hf, hsg, hmag⟩ := roundT_of_lt (sign := false) Nat.one_pos hlt
    rw [hs]
    exact ⟨hf, by rw [valUnits, hsg, hmag, if_neg Bool.false_ne_true]⟩

/-! ### The phase less its floor (R74, R114) -/

/-- A value less its floor, in units: below one. -/
theorem valUnits_sub_floor {p : Sample} (hp : isFinite fl p = true) :
    ∃ m : Nat, valUnits fl p - valUnits fl (ffloor fl p) = m ∧ m < oneUnits fl
      ∧ (m : Int) = valUnits fl p % (oneUnits fl : Int) := by
  have hone : (0 : Int) < (oneUnits fl : Int) := by exact_mod_cast oneUnits_pos fl
  have h0 := Int.emod_nonneg (valUnits fl p) hone.ne'
  have h1 := Int.emod_lt_of_pos (valUnits fl p) hone
  obtain ⟨m, hm⟩ := Int.eq_ofNat_of_zero_le h0
  refine ⟨m, ?_, by omega, hm.symm⟩
  rw [(ffloor_spec hp).2, ← hm, floorInt, Int.emod_def, Int.mul_comm]

/-- A value that is not negative, less its floor, is not rounded: it has no bit that the value has not. -/
theorem roundedUnits_emod {p : Sample} {m : Nat} (h0 : 0 ≤ valUnits fl p)
    (hm : (m : Int) = valUnits fl p % (oneUnits fl : Int)) : roundedUnits fl m 1 = m := by
  obtain ⟨q, hq, hmag⟩ := magUnits_form (fl := fl) p
  have hv : valUnits fl p = (magUnits fl p : Int) := by have := natAbs_valUnits (fl := fl) p; omega
  have hm' : m = q * 2 ^ (expField fl p - 1) % 2 ^ unitExp fl := by
    rw [hv, hmag] at hm; exact_mod_cast hm
  rcases Nat.le_total (expField fl p - 1) (unitExp fl) with he | he
  · have hsplit : 2 ^ unitExp fl = 2 ^ (unitExp fl - (expField fl p - 1)) * 2 ^ (expField fl p - 1) := by
      rw [← pow_add, Nat.sub_add_cancel he]
    rw [hsplit, Nat.mul_mod_mul_right] at hm'
    rw [hm']
    exact roundedUnits_of_short ((Nat.mod_le _ _).trans_lt hq)
  · have hz : m = 0 * 2 ^ 0 := by
      rw [hm', Nat.mod_eq_zero_of_dvd (Dvd.dvd.mul_left (pow_dvd_pow 2 he) q), Nat.zero_mul]
    rw [hz]
    exact roundedUnits_of_short (Nat.two_pow_pos _)

/-- A finite phase less its floor is a word of `[0, 1]`, and exact for a phase that is not negative. -/
theorem fsub_ffloor {p : Sample} (hp : isFinite fl p = true) :
    isFinite fl (fsub fl p (ffloor fl p)) = true ∧ 0 ≤ valUnits fl (fsub fl p (ffloor fl p))
      ∧ valUnits fl (fsub fl p (ffloor fl p)) ≤ oneUnits fl
      ∧ (0 ≤ valUnits fl p → valUnits fl (fsub fl p (ffloor fl p)) = valUnits fl p % (oneUnits fl : Int)) := by
  obtain ⟨m, hm, hm1, hmod⟩ := valUnits_sub_floor hp
  have hle : roundedUnits fl m 1 ≤ oneUnits fl := roundedUnits_le_two_pow hm1.le
  have hlt : roundedUnits fl m 1 < 2 ^ (emax fl + 1) * oneUnits fl :=
    hle.trans_lt (lt_mul_of_one_lt_left (oneUnits_pos fl) (Nat.one_lt_two_pow (by omega)))
  obtain ⟨hf, hv⟩ := fsub_of_nonneg hp (ffloor_spec hp).1 hm hlt
  rw [hv]
  exact ⟨hf, by omega, by exact_mod_cast hle, fun h0 => by rw [roundedUnits_emod h0 hmod, hmod]⟩

/-! ### Values as rational numbers (R66) -/

theorem oneUnits_pos_rat : (0 : ℚ) < oneUnits fl := by exact_mod_cast oneUnits_pos fl

theorem valQ_nonneg {x : Sample} : 0 ≤ valQ fl x ↔ 0 ≤ valUnits fl x := by
  rw [valQ, le_div_iff₀ oneUnits_pos_rat, zero_mul]; exact_mod_cast Iff.rfl

theorem valQ_le_one {x : Sample} : valQ fl x ≤ 1 ↔ valUnits fl x ≤ oneUnits fl := by
  rw [valQ, div_le_one oneUnits_pos_rat]; exact_mod_cast Iff.rfl

theorem floor_valQ (x : Sample) : ⌊valQ fl x⌋ = floorInt fl x := Rat.floor_intCast_div_natCast _ _

/-- The fraction of a value, in units. -/
theorem valQ_sub_floor (x : Sample) :
    valQ fl x - ⌊valQ fl x⌋ = ((valUnits fl x % (oneUnits fl : Int) : Int) : ℚ) / oneUnits fl := by
  have h := oneUnits_pos_rat (fl := fl)
  rw [floor_valQ, floorInt, Int.emod_def, valQ]
  push_cast
  field_simp

/-! ### The two wrap modes -/

/-- What `LFO.NEXT` leaves in the oscillator of a running block. -/
theorem execLfoNext_lfo {s t : State} (hh : s.halt = none) (h : exec .lfoNext s = .next t) :
    t.lfo = s.lfo.map fun o => { o with phase := nextPhase s.cfg o } := by
  rcases execLfoNext_next.mp h with ⟨hs, -⟩ | ⟨-, ⟨hl, rfl⟩ | ⟨o, hl, rfl⟩⟩
  · simp [hh] at hs
  · simp [hl]
  · simp [hl]

theorem not_fgt_zeroT_oneT : fgt fl zeroT (oneT fl) = false := by
  have hz : valUnits fl zeroT = 0 := by rw [zeroT_eq, valUnits_zeroOf]
  have hs : signBit fl (oneT fl) = false := by cases fl <;> decide
  have h1 : 0 ≤ valUnits fl (oneT fl) := by simp [valUnits, hs]
  simp only [fgt, hz, Bool.and_eq_false_iff, decide_eq_false_iff_not]
  exact .inr (by omega)

theorem fgt_wrapPhase_reset (p : Sample) : fgt fl (wrapPhase .reset fl p) (oneT fl) = false := by
  unfold wrapPhase
  cases hgt : fgt fl p (oneT fl) with
  | false => simpa using hgt
  | true => exact not_fgt_zeroT_oneT

/-- Settles O44: the new phase is a wrapped phase. -/
theorem resetPhaseNotAboveOne : Obligations.ResetPhaseNotAboveOne := by
  intro s t o hmode hh h ho
  rw [execLfoNext_lfo hh h, Option.map_eq_some_iff] at ho
  obtain ⟨o, -, rfl⟩ := ho
  simp only [nextPhase, hmode]
  exact fgt_wrapPhase_reset _

/-- Settles O45: the new phase is the advanced phase less its floor. -/
theorem fracPhaseInUnitInterval : Obligations.FracPhaseInUnitInterval := by
  intro s t o o' hmode hh ho h ho' fl p hp
  rw [execLfoNext_lfo hh h, ho] at ho'
  cases ho'
  have hphase : nextPhase s.cfg o = fsub fl p (ffloor fl p) := by simp only [nextPhase, hmode]; rfl
  obtain ⟨hf, h0, h1, hexact⟩ := fsub_ffloor hp
  simp only [hphase]
  refine ⟨hf, valQ_nonneg.mpr h0, valQ_le_one.mpr h1, fun hp0 => ?_⟩
  rw [valQ_sub_floor, valQ, hexact (valQ_nonneg.mp hp0)]

end Sys2Proof.Machine

/-! PROOFS. What a step does with the item at the head of the run, one equation per item (20_memory R36, 30_encoding R58,
60_exceptions R143, R154, 70_reset R155): the form of `step_next` that also speaks of a step that stops. -/

namespace Sys2Proof.Machine

variable {s : State} {rest : List Item}

/-! ### One item -/

theorem step_idle (hp : s.pending = []) : step s = .next s :=
  step_next.mpr (.inl ⟨hp, rfl⟩)

theorem step_reset (hp : s.pending = .reset :: rest) : step s = .next (resetBlock { s with pending := rest }) :=
  step_next.mpr (.inr (.inl ⟨rest, hp, rfl⟩))

theorem step_take (hp : s.pending = .take :: rest) : step s = .next (takeResponse { s with pending := rest }) :=
  step_next.mpr (.inr (.inr (.inl ⟨rest, hp, rfl⟩)))

theorem step_command {w : CommandWord} (hp : s.pending = .command w :: rest) :
    step s = acceptWord w { s with pending := rest } := by
  simp only [step, takeItem, hp]

/-! ### The port's two case splits -/

/-- A running block executes a legal word (R143). -/
theorem acceptWord_of_decode {w : CommandWord} {i : Instr} (hh : s.halt = none) (hd : decode s.cfg.flen w = .ok i) :
    acceptWord w s = exec i s := by
  simp [acceptWord, hh, hd]

theorem takeResponse_of_none_waiting (hw : s.waiting = []) : takeResponse s = s := by
  simp only [takeResponse, hw]

theorem takeResponse_of_waiting {r : ResponseWord} {more : List ResponseWord} (hw : s.waiting = r :: more) :
    takeResponse s = { s with waiting := more, delivered := s.delivered ++ [r] } := by
  simp only [takeResponse, hw]

/-- Settles O7: one clause for each item, and one for an idle step. -/
theorem stepRunsDecodedCommand : Obligations.StepRunsDecodedCommand := by
  refine ⟨?command, fun s => step_idle, ?reset, ?take⟩
  case command =>
    intro s w rest i hh hp hd
    rw [step_command hp]
    exact acceptWord_of_decode hh hd
  case reset => exact fun s rest hp => ⟨_, step_reset hp, resetBlock_cfg _, resetBlock_pending _⟩
  case take =>
    intro s rest hp
    rw [step_take hp]
    exact ⟨fun hw => congrArg _ (takeResponse_of_none_waiting hw),
      fun r more hw => congrArg _ (takeResponse_of_waiting hw)⟩

end Sys2Proof.Machine

/-! PROOFS. The command words (30_encoding R45 to R51). A word is its three fields, the decoder accepts it exactly when the fields
are legal for one operation, and a legal slot is the slot of the operand it carries. -/

namespace Sys2Proof.Machine

/-! ### The fields of a word (R45) -/

theorem opField_append (op : Opcode) (a b : Slot) : opField (op ++ a ++ b) = op := by
  rw [opField, BitVec.extractLsb'_append_eq_of_le (by decide)]
  exact BitVec.extractLsb'_append_eq_left

theorem aField_append (op : Opcode) (a b : Slot) : aField (op ++ a ++ b) = a := by
  rw [aField, BitVec.extractLsb'_append_eq_of_le (by decide)]
  exact BitVec.extractLsb'_append_eq_right

theorem bField_append (op : Opcode) (a b : Slot) : bField (op ++ a ++ b) = b :=
  BitVec.extractLsb'_append_eq_right

theorem append_fields (w : CommandWord) : opField w ++ aField w ++ bField w = w := by
  have hopa : opField w ++ aField w = w.extractLsb' 64 72 :=
    BitVec.extractLsb'_append_extractLsb'_eq_extractLsb' (by decide)
  rw [hopa]
  exact BitVec.extractLsb'_append_extractLsb'

/-- Words with equal fields are equal. -/
theorem eq_iff_fields {w v : CommandWord} :
    w = v ↔ opField w = opField v ∧ aField w = aField v ∧ bField w = bField v := by
  refine ⟨by rintro rfl; exact ⟨rfl, rfl, rfl⟩, fun ⟨hop, ha, hb⟩ => ?_⟩
  rw [← append_fields w, hop, ha, hb, append_fields]

@[simp] theorem opField_encode (i : Instr) : opField (encode i) = opcodeOf (operation i) := opField_append _ _ _
@[simp] theorem aField_encode (i : Instr) : aField (encode i) = aSlot i := aField_append _ _ _
@[simp] theorem bField_encode (i : Instr) : bField (encode i) = bSlot i := bField_append _ _ _

/-! ### The opcode map (R48) -/

theorem operationOf_opcodeOf (o : Operation) : operationOf (opcodeOf o) = some o := by cases o <;> rfl

theorem operationOf_eq_some {op : Opcode} {o : Operation} : operationOf op = some o ↔ op = opcodeOf o := by
  refine ⟨fun h => ?_, by rintro rfl; exact operationOf_opcodeOf o⟩
  unfold operationOf at h
  split_ifs at h <;> cases h <;> assumption

theorem opcodeOf_injective : Function.Injective opcodeOf := fun o o' h =>
  Option.some.inj (by rw [← operationOf_opcodeOf o, h, operationOf_opcodeOf])

/-! ### Slots (R46) -/

theorem upperZero_iff {s : Slot} : upperZero s = true ↔ s.extractLsb' 32 32 = 0#32 := beq_iff_eq

/-- A slot is its upper half and the index it carries. -/
theorem append_indexOf (s : Slot) : s.extractLsb' 32 32 ++ indexOf s = s := BitVec.extractLsb'_append_extractLsb'

@[simp] theorem indexOf_setWidth (n : Index) : indexOf (n.setWidth 64) = n := by
  rw [indexOf, BitVec.extractLsb'_setWidth_of_le (by decide), BitVec.extractLsb'_eq_self]

theorem setWidth_indexOf {s : Slot} (h : upperZero s = true) : (indexOf s).setWidth 64 = s := by
  calc (indexOf s).setWidth 64 = 0#32 ++ indexOf s := BitVec.setWidth_eq_append (by decide)
    _ = s := by rw [← upperZero_iff.mp h, append_indexOf]

/-- The slot of the operand that a slot of kind `k` carries. -/
def slotContent (fl : Flen) : SlotKind → Slot → Slot
  | .index, s => (indexOf s).setWidth 64
  | .float, s => floatOf fl s
  | .unused, _ => 0#64

/-- No bit of a legal slot is ignored. -/
theorem slotContent_of_legal {fl : Flen} {k : SlotKind} {s : Slot} (h : slotLegal fl k s = true) :
    slotContent fl k s = s := by
  cases k with
  | index => exact setWidth_indexOf h
  | float =>
    cases fl with
    | f32 => exact setWidth_indexOf (by simpa [slotLegal] using h)
    | f64 => rfl
  | unused => exact (beq_iff_eq.mp h).symm

theorem floatOf_of_fits {fl : Flen} {x : Sample} (h : fl.fits x) : floatOf fl x = x :=
  slotContent_of_legal (k := .float) (Laws.LegalSlots.slotLegal_float h)

/-- Conditions (b), (c), (d) of R49 on one slot. -/
def SlotFault (fl : Flen) (k : SlotKind) (s : Slot) : Prop :=
  (k = .index ∧ s.extractLsb' 32 32 ≠ 0#32) ∨ (k = .unused ∧ s ≠ 0#64) ∨
    (fl = .f32 ∧ k = .float ∧ s.extractLsb' 32 32 ≠ 0#32)

theorem not_slotLegal_iff {fl : Flen} {k : SlotKind} {s : Slot} : ¬ slotLegal fl k s = true ↔ SlotFault fl k s := by
  cases k with
  | index => simp [SlotFault, slotLegal, upperZero_iff]
  | float => cases fl <;> simp [SlotFault, slotLegal, upperZero_iff]
  | unused => simp [SlotFault, slotLegal]

/-! ### What the decoder accepts (R49, R50) -/

/-- The word has `o`'s opcode, and slots that are legal for its format. -/
def LegalFor (fl : Flen) (o : Operation) (w : CommandWord) : Prop :=
  opField w = opcodeOf o ∧ slotLegal fl (formatOf o).1 (aField w) = true ∧ slotLegal fl (formatOf o).2 (bField w) = true

variable {fl : Flen} {w : CommandWord} {i : Instr}

theorem decode_eq_ok :
    decode fl w = .ok i ↔ ∃ o, LegalFor fl o w ∧ buildInstr fl o (aField w) (bField w) = i := by
  constructor
  · intro h
    unfold decode at h
    split at h
    · cases h
    · rename_i o ho
      split_ifs at h with ha hb
      exact ⟨o, ⟨operationOf_eq_some.mp ho, ha, hb⟩, Except.ok.inj h⟩
  · rintro ⟨o, ⟨ho, ha, hb⟩, rfl⟩
    simp only [decode, operationOf_eq_some.mpr ho, ha, hb, if_true]

theorem exists_decode_error_iff : (∃ e, decode fl w = .error e) ↔ ∀ o, ¬ LegalFor fl o w := by
  cases h : decode fl w with
  | ok i =>
    obtain ⟨o, hl, -⟩ := decode_eq_ok.mp h
    simpa using ⟨o, hl⟩
  | error e =>
    refine ⟨fun _ o hl => ?_, fun _ => ⟨e, rfl⟩⟩
    cases h.symm.trans (decode_eq_ok.mpr ⟨o, hl, rfl⟩)

/-! ### A command built from slots, and the slots of a command (R46, R47) -/

@[simp] theorem operation_buildInstr (o : Operation) (a b : Slot) : operation (buildInstr fl o a b) = o := by
  cases o <;> rfl

theorem aSlot_buildInstr (o : Operation) (a b : Slot) :
    aSlot (buildInstr fl o a b) = slotContent fl (formatOf o).1 a := by
  cases o <;> rfl

theorem bSlot_buildInstr (o : Operation) (a b : Slot) :
    bSlot (buildInstr fl o a b) = slotContent fl (formatOf o).2 b := by
  cases o <;> rfl

theorem buildInstr_slots (h : i.wf fl) : buildInstr fl (operation i) (aSlot i) (bSlot i) = i := by
  cases i with
  | dlNew | dlRead => simp [buildInstr, operation, aSlot, bSlot]
  | dlWrite | dlReadi => simp [buildInstr, operation, aSlot, bSlot, floatOf_of_fits h]
  | lfoNew => simp [buildInstr, operation, aSlot, bSlot, floatOf_of_fits h.1, floatOf_of_fits h.2]
  | lfoSetf => simp [buildInstr, operation, aSlot, floatOf_of_fits h]
  | lfoNext => rfl

theorem legalFor_encode (h : i.wf fl) : LegalFor fl (operation i) (encode i) := by
  have hi : Laws.LegalSlots.Statement i := by
    cases i with
    | dlNew n m => exact Laws.LegalSlots.dlNew n m
    | dlWrite ch x => exact Laws.LegalSlots.dlWrite ch x
    | dlRead ch d => exact Laws.LegalSlots.dlRead ch d
    | dlReadi ch x => exact Laws.LegalSlots.dlReadi ch x
    | lfoNew f sr => exact Laws.LegalSlots.lfoNew f sr
    | lfoSetf f => exact Laws.LegalSlots.lfoSetf f
    | lfoNext => exact Laws.LegalSlots.lfoNext
  obtain ⟨-, hslots⟩ := hi
  rw [LegalFor, opField_encode, aField_encode, bField_encode]
  exact ⟨rfl, hslots fl h⟩

/-- Settles O1: the word of a command is legal for its operation, and the operands are read back from its slots. -/
theorem decodeOfEncode : Obligations.DecodeOfEncode := by
  intro fl i h
  refine decode_eq_ok.mpr ⟨operation i, legalFor_encode h, ?_⟩
  rw [aField_encode, bField_encode, buildInstr_slots h]

/-- Settles O2: the fields of the command's word are the opcode and the two legal slots it was built from. -/
theorem encodeOfDecode : Obligations.EncodeOfDecode := by
  intro fl w i h
  refine ⟨?_, wf_of_decode h⟩
  obtain ⟨o, ⟨hop, ha, hb⟩, rfl⟩ := decode_eq_ok.mp h
  rw [eq_iff_fields]
  simp only [opField_encode, aField_encode, bField_encode, operation_buildInstr, aSlot_buildInstr, bSlot_buildInstr]
  exact ⟨hop.symm, slotContent_of_legal ha, slotContent_of_legal hb⟩

/-- Settles O3: a word is illegal when it is legal for no operation, and its opcode selects at most one. -/
theorem illegalWordsExactly : Obligations.IllegalWordsExactly := by
  intro fl w
  have hslots (o : Operation) :
      ¬ (slotLegal fl (formatOf o).1 (aField w) = true ∧ slotLegal fl (formatOf o).2 (bField w) = true) ↔
        SlotFault fl (formatOf o).1 (aField w) ∨ SlotFault fl (formatOf o).2 (bField w) := by
    rw [not_and_or, not_slotLegal_iff, not_slotLegal_iff]
  unfold SlotFault at hslots
  rw [exists_decode_error_iff]
  constructor
  · intro h
    by_cases hop : ∃ o, opField w = opcodeOf o
    · obtain ⟨o, ho⟩ := hop
      have := (hslots o).mp fun hs => h o ⟨ho, hs⟩
      exact .inr ⟨o, ho, by tauto⟩
    · exact .inl (not_exists.mp hop)
  · rintro (h | ⟨o, ho, hbad⟩) o' ⟨ho', hs⟩
    · exact h o' ho'
    · obtain rfl := opcodeOf_injective (ho'.symm.trans ho)
      exact (hslots o').mpr (by tauto) hs

/-- Settles O4: each word, read by the decoder. -/
theorem workedWordsDecode : Obligations.WorkedWordsDecode := by
  refine ⟨fun fl => ?_, by decide⟩
  cases fl <;> decide

/-! ### The opcode table (R48, R49) -/

/-- The bits of a slot of kind `k` that must be zero (R46). -/
def slotMask (fl : Flen) : SlotKind → Slot
  | .index => 0xFFFFFFFF00000000#64
  | .float =>
    match fl with
    | .f32 => 0xFFFFFFFF00000000#64
    | .f64 => 0#64
  | .unused => 0xFFFFFFFFFFFFFFFF#64

theorem and_upperMask_eq_zero_iff {s : Slot} : s &&& 0xFFFFFFFF00000000#64 = 0#64 ↔ upperZero s = true := by
  have hs : s &&& 0xFFFFFFFF00000000#64 = s.extractLsb' 32 32 ++ 0#32 := by
    calc s &&& 0xFFFFFFFF00000000#64
        = (s.extractLsb' 32 32 ++ indexOf s) &&& (BitVec.allOnes 32 ++ 0#32) := by rw [append_indexOf]; rfl
      _ = s.extractLsb' 32 32 ++ 0#32 := by rw [BitVec.and_append, BitVec.and_allOnes, BitVec.and_zero]
  rw [hs, upperZero_iff]
  exact BitVec.append_left_inj (s₂ := 0#32) 0#32

theorem and_slotMask_eq_zero_iff {k : SlotKind} {s : Slot} :
    s &&& slotMask fl k = 0#64 ↔ slotLegal fl k s = true := by
  cases k with
  | index => exact and_upperMask_eq_zero_iff
  | float =>
    cases fl with
    | f32 => simpa [slotMask, slotLegal] using and_upperMask_eq_zero_iff
    | f64 => simp [slotMask, slotLegal]
  | unused =>
    have hs : s &&& slotMask fl .unused = s := BitVec.and_allOnes
    simp [hs, slotLegal]

/-- The rows of the table: the whole of `op`, and of each slot the bits that must be zero. -/
theorem tableMask_fields (fl : Flen) (o : Operation) : opField (tableMask fl o) = BitVec.allOnes 8
    ∧ aField (tableMask fl o) = slotMask fl (formatOf o).1 ∧ bField (tableMask fl o) = slotMask fl (formatOf o).2 := by
  cases fl <;> cases o <;> decide

theorem tableMatch_fields (o : Operation) :
    opField (tableMatch o) = opcodeOf o ∧ aField (tableMatch o) = 0#64 ∧ bField (tableMatch o) = 0#64 := by
  cases o <;> decide

theorem and_tableMask_eq_iff {o : Operation} : w &&& tableMask fl o = tableMatch o ↔ LegalFor fl o w := by
  obtain ⟨hop, ha, hb⟩ := tableMask_fields fl o
  obtain ⟨hop', ha', hb'⟩ := tableMatch_fields o
  have hand : opField (w &&& tableMask fl o) = opField w ∧
      aField (w &&& tableMask fl o) = aField w &&& slotMask fl (formatOf o).1 ∧
      bField (w &&& tableMask fl o) = bField w &&& slotMask fl (formatOf o).2 := by
    rw [← ha, ← hb]
    refine ⟨?_, BitVec.extractLsb'_and, BitVec.extractLsb'_and⟩
    rw [opField, BitVec.extractLsb'_and]
    exact (congrArg _ hop).trans BitVec.and_allOnes
  obtain ⟨h1, h2, h3⟩ := hand
  rw [eq_iff_fields, h1, h2, h3, hop', ha', hb', and_slotMask_eq_zero_iff, and_slotMask_eq_zero_iff, LegalFor]

/-- Settles O5: a word agrees with a row exactly when it is legal for the row's operation. -/
theorem opcodeTableAgrees : Obligations.OpcodeTableAgrees := by
  intro fl w o
  rw [and_tableMask_eq_iff]
  constructor
  · rintro ⟨i, hi, rfl⟩
    obtain ⟨o, hl, rfl⟩ := decode_eq_ok.mp hi
    rwa [operation_buildInstr]
  · exact fun hl => ⟨_, decode_eq_ok.mpr ⟨o, hl, rfl⟩, operation_buildInstr o _ _⟩

end Sys2Proof.Machine

/-! PROOFS. The assembler emits legal words only (30_encoding R55): every float literal it reads is a `T` word, so every command it
reads is well formed, and the word of a well-formed command decodes. -/

namespace Sys2Proof.Machine

/-! ### Literals -/

theorem hexDigit_lt {c : Char} {v : Nat} (h : hexDigit c = some v) : v < 16 := by
  unfold hexDigit decDigit at h
  split_ifs at h <;> cases h <;> omega

/-- Digits multiply and add: `k` of them after `acc` stay below `(acc + 1) * base ^ k`. -/
theorem digitsFrom_lt {digit : Char → Option Nat} {base : Nat} (hdigit : ∀ {c v}, digit c = some v → v < base)
    {cs : List Char} {acc n : Nat} (h : digitsFrom digit base acc cs = some n) : n < (acc + 1) * base ^ cs.length := by
  induction cs generalizing acc with
  | nil => cases h; simp
  | cons c cs ih =>
    unfold digitsFrom at h
    split at h
    · cases h
    · rename_i v hv
      calc n < (acc * base + v + 1) * base ^ cs.length := ih h
        _ ≤ (acc + 1) * base * base ^ cs.length :=
          Nat.mul_le_mul_right _ (by have := hdigit hv; rw [Nat.add_one_mul]; omega)
        _ = (acc + 1) * base ^ (c :: cs).length := by rw [List.length_cons, pow_succ, mul_assoc, mul_comm base]

theorem number_lt {digit : Char → Option Nat} {base n : Nat} {cs : List Char}
    (hdigit : ∀ {c v}, digit c = some v → v < base) (h : number digit base cs = some n) : n < base ^ cs.length := by
  cases cs with
  | nil => cases h
  | cons c cs => simpa using digitsFrom_lt hdigit h

variable {fl : Flen}

theorem decimalT_fits (sign : Bool) (digits : Nat) (power : Int) : fl.fits (decimalT fl sign digits power) := by
  unfold decimalT
  split
  · exact zeroOf_fits
  · exact roundT_fits

theorem readDecimal_fits {cs : List Char} {x : Sample} (h : readDecimal fl cs = some x) : fl.fits x := by
  unfold readDecimal at h
  simp only at h
  split at h
  · split_ifs at h
    split at h
    · cases h
    · cases h; exact decimalT_fits _ _ _
  · cases h

/-- `FLEN / 4` hexadecimal digits are `FLEN` bits. -/
theorem bits_fits {hs : List Char} {n : Nat} (hl : hs.length = flenBits fl / 4) (h : number hexDigit 16 hs = some n) :
    fl.fits (BitVec.ofNat 64 n) := by
  cases fl with
  | f32 =>
    have hn := number_lt hexDigit_lt h
    rw [hl] at hn
    right
    rw [BitVec.toNat_ofNat]
    exact (Nat.mod_le _ _).trans_lt hn
  | f64 => left; rfl

theorem readFloat_fits {cs : List Char} {x : Sample} (h : readFloat fl cs = some x) : fl.fits x := by
  unfold readFloat at h
  split at h
  · cases h; exact infOf_fits
  · cases h; exact infOf_fits
  · cases h; exact cnanT_fits
  · split_ifs at h with hl
    obtain ⟨n, hn, rfl⟩ := Option.map_eq_some_iff.mp h
    exact bits_fits hl hn
  · exact readDecimal_fits h

/-! ### Commands -/

/-- By the commands of R55's table, in its order, and the texts that are none of them. -/
theorem readCommand_wf {mnemonic : List Char} {operands : List (List Char)} {i : Instr}
    (h : readCommand fl mnemonic operands = some i) : i.wf fl := by
  unfold readCommand at h
  split at h
  case h_1 | h_3 =>
    split at h
    · cases h; trivial
    · cases h
  case h_2 | h_4 =>
    split at h
    · rename_i hx
      cases h; exact readFloat_fits hx
    · cases h
  case h_5 =>
    split at h
    · rename_i hf hsr
      cases h; exact ⟨readFloat_fits hf, readFloat_fits hsr⟩
    · cases h
  case h_6 =>
    obtain ⟨f, hf, rfl⟩ := Option.map_eq_some_iff.mp h
    exact readFloat_fits hf
  case h_7 => cases h; trivial
  case h_8 => cases h

theorem assembleLine_wf {line : List Char} {i : Instr} (h : assembleLine fl line = some i) : i.wf fl := readCommand_wf h

theorem exists_of_mem_mapM {α β : Type} {f : α → Option β} {l : List α} {ys : List β} {y : β}
    (h : l.mapM f = some ys) (hy : y ∈ ys) : ∃ x ∈ l, f x = some y := by
  induction l generalizing ys with
  | nil => cases h; cases hy
  | cons x l ih =>
    rw [List.mapM_cons] at h
    obtain ⟨z, hz, h⟩ := Option.bind_eq_some_iff.mp h
    obtain ⟨zs, hzs, h⟩ := Option.bind_eq_some_iff.mp h
    cases h
    rcases List.mem_cons.mp hy with rfl | hy
    · exact ⟨x, List.mem_cons_self, hz⟩
    · obtain ⟨x', hx', hfx⟩ := ih hzs hy
      exact ⟨x', List.mem_cons_of_mem _ hx', hfx⟩

/-- Every word of an assembled text is the word of the command on one of its lines. -/
theorem exists_line_of_mem_assemble {text : List Char} {ws : List CommandWord} {w : CommandWord}
    (h : assemble fl text = some ws) (hw : w ∈ ws) : ∃ line i, assembleLine fl line = some i ∧ encode i = w := by
  obtain ⟨line, -, hline⟩ := exists_of_mem_mapM h hw
  obtain ⟨i, hi, hiw⟩ := Option.map_eq_some_iff.mp hline
  exact ⟨line, i, hi, hiw⟩

/-- Settles O6: a word of the assembler is the word of a well-formed command, which decodes to that command. -/
theorem assemblerEmitsLegalWords : Obligations.AssemblerEmitsLegalWords := by
  intro fl text ws h w hw
  obtain ⟨line, i, hi, rfl⟩ := exists_line_of_mem_assemble h hw
  exact ⟨i, decodeOfEncode fl i (assembleLine_wf hi)⟩

end Sys2Proof.Machine

/-! PROOFS. The responses of a step (30_encoding R52 to R54, R58): one behind those that wait for an accepted command word, with the
outcome in its status, and none for any other item. -/

namespace Sys2Proof.Machine

variable {s t : State}

/-- The one response to an accepted word, and its status and value by the halt state before and after (R52 to R54). -/
theorem acceptWord_response {w : CommandWord} (h : acceptWord w s = .next t) :
    t.pending = s.pending ∧ t.delivered = s.delivered ∧ t.dropped = s.dropped ∧
    ∃ st v, t.waiting = s.waiting ++ [responseWord st v] ∧
      (s.halt.isSome = true → st = statusHalted ∧ v = 0#64) ∧
      (s.halt = none → t.halt = none → st = statusOk) ∧
      (s.halt = none → t.halt.isSome = true → st = fcauseField t ∧ v = fvalReg t) := by
  rcases acceptWord_outcome h with ⟨hh, rfl⟩ | ⟨hh, ⟨c, v, rfl⟩ | ⟨d, o, v, rfl⟩⟩
  · have hne := Option.isSome_iff_ne_none.mp hh
    exact ⟨rfl, rfl, rfl, _, _, rfl, fun _ => ⟨rfl, rfl⟩, fun h0 => absurd h0 hne, fun h0 => absurd h0 hne⟩
  · exact ⟨rfl, rfl, rfl, _, _, rfl, by simp [hh], by simp, fun _ _ => ⟨rfl, rfl⟩⟩
  · exact ⟨rfl, rfl, rfl, _, _, rfl, by simp [hh], fun _ _ => rfl, by simp [hh]⟩

/-- Settles O12: an accepted word adds one response; a reset moves those that wait to the dropped ones, and a taking the first
of them to the delivered ones. -/
theorem oneResponsePerCommand : Obligations.OneResponsePerCommand := by
  intro s t h
  rcases step_next.mp h with ⟨hp, rfl⟩ | ⟨rest, hp, rfl⟩ | ⟨rest, hp, rfl⟩ | ⟨w, rest, hp, ha⟩
  · simp [hp]
  · simp only [hp, ne_eq, reduceCtorEq, List.cons.injEq]
    refine ⟨by simp, fun _ => ?_, by simp⟩
    rw [produced_resetBlock]
    rfl
  · refine ⟨by simp [hp], fun _ => produced_takeResponse _, fun _ => ⟨takeResponse_dropped _, ?_, ?_⟩⟩
    · rw [takeResponse_delivered]
      exact ⟨_, rfl⟩
    · rw [takeResponse_order]
  · obtain ⟨hpend, hdel, hdrop, st, v, hwait, -⟩ := acceptWord_response ha
    refine ⟨fun w' rest' hp' => ?_, fun hno => absurd hp (hno w rest),
      fun _ => ⟨hdrop, ⟨[], by rw [hdel, List.append_nil]⟩, ?_⟩⟩
    · cases hp.symm.trans hp'
      exact ⟨hpend, hdel, hdrop, _, hwait⟩
    · rw [hdel, hwait, ← List.append_assoc]
      exact ⟨_, rfl⟩

/-- Settles O13: the response that stands last is the one `acceptWord_response` speaks of. -/
theorem responseTellsOutcome : Obligations.ResponseTellsOutcome := by
  intro s t w rest r h hp hw
  rw [step_command hp] at h
  obtain ⟨-, -, -, st, v, hwait, hhalted, hok, hfault⟩ := acceptWord_response h
  obtain rfl : r = responseWord st v := by simpa using hw.symm.trans hwait
  refine ⟨fun hs => ?_, fun hs ht => ?_, fun hs ht => ?_⟩
  · obtain ⟨rfl, rfl⟩ := hhalted hs
    rfl
  · rw [statusField_responseWord]
    exact hok hs ht
  · obtain ⟨rfl, rfl⟩ := hfault hs ht
    exact ⟨rfl, (fcauseField_ne_zero_iff t).mpr ht⟩

end Sys2Proof.Machine

/-! PROOFS. The kinds of words and their values (40_numerics R65, R66): every word is finite, an infinity or a NaN; the value of
a finite word by its sign and its magnitude; and the statements that need no more than these: the fields' formula, the
comparisons (R75), the index conversion (R76), the floor (R74), the sine (R84) and the constants of pi (R69). -/

namespace Sys2Proof.Machine

variable {fl : Flen} {a b x : Sample}

/-! ### The kinds of words (R66) -/

/-- A word that is not finite is a NaN or an infinity: it has the top exponent. -/
theorem isFinite_eq_false : isFinite fl x = false ↔ fisnan fl x = true ∨ fisinf fl x = true := by
  have hle := expField_le (fl := fl) x
  have htop : isFinite fl x = false ↔ expField fl x = expTop fl := by
    rw [isFinite, decide_eq_false_iff_not]; omega
  by_cases hf : fracField fl x = 0 <;> simp [htop, fisnan, fisinf, hf]

theorem fisnan_of_fisinf (h : fisinf fl x = true) : fisnan fl x = false := by
  simp only [fisinf, Bool.and_eq_true, beq_iff_eq] at h
  simp [fisnan, h.2]

theorem isFinite_of_fiszero (h : fiszero fl x = true) : isFinite fl x = true := by
  simp only [fiszero, Bool.and_eq_true, beq_iff_eq] at h
  rw [isFinite, h.1, expTop_eq, decide_eq_true_eq]
  omega

theorem fiszero_of_fisinf (h : fisinf fl x = true) : fiszero fl x = false := by
  refine Bool.eq_false_iff.mpr fun hz => ?_
  rw [fisinf_of_isFinite (isFinite_of_fiszero hz)] at h
  cases h

theorem fiszero_zeroOf (sign : Bool) : fiszero fl (zeroOf fl sign) = true := by cases fl <;> cases sign <;> decide

theorem isFinite_zeroT : isFinite fl zeroT = true := by rw [zeroT_eq, isFinite_zeroOf]

theorem fisinf_infOf (sign : Bool) : fisinf fl (infOf fl sign) = true := by cases fl <;> cases sign <;> decide

theorem signBit_infOf (sign : Bool) : signBit fl (infOf fl sign) = sign := by cases fl <;> cases sign <;> decide

/-! ### Values by sign and magnitude (R66) -/

/-- The number of a sign. -/
def signQ (sign : Bool) : ℚ := if sign then -1 else 1

theorem signQ_bne (s t : Bool) : signQ (s != t) = signQ s * signQ t := by cases s <;> cases t <;> simp [signQ]

theorem decide_signQ_mul_neg {r : ℚ} (hr : 0 < r) (sign : Bool) : decide (signQ sign * r < 0) = sign := by
  cases sign <;> simp [signQ, hr, hr.le]

theorem abs_signQ_mul (sign : Bool) (r : ℚ) : |signQ sign * r| = |r| := by cases sign <;> simp [signQ]

theorem valQ_eq_signQ_mul (x : Sample) : valQ fl x = signQ (signBit fl x) * (magUnits fl x / oneUnits fl) := by
  unfold valQ valUnits signQ
  split <;> push_cast <;> ring

theorem magUnits_eq_zero : magUnits fl x = 0 ↔ fiszero fl x = true := by
  refine ⟨fun h => ?_, magUnits_of_fiszero⟩
  unfold magUnits at h
  split at h
  · rename_i he; simp [fiszero, he, h]
  · exact absurd h (Nat.mul_pos (Nat.add_pos_left (Nat.two_pow_pos _) _) (Nat.two_pow_pos _)).ne'

theorem magUnits_pos (h : fiszero fl x = false) : 0 < magUnits fl x :=
  Nat.pos_of_ne_zero fun h0 => by simp [magUnits_eq_zero.mp h0] at h

/-- The magnitude an infinity has in the model is the bound of every finite magnitude. -/
theorem magUnits_of_fisinf (h : fisinf fl x = true) : magUnits fl x = 2 ^ (emax fl + 1) * oneUnits fl := by
  simp only [fisinf, Bool.and_eq_true, beq_iff_eq] at h
  obtain ⟨he, hf⟩ := h
  have htop := expTop_eq fl
  have hunit := unitExp_eq fl
  rw [magUnits, if_neg (by omega), he, hf, Nat.add_zero, oneUnits, ← pow_add, ← pow_add]
  congr 1
  omega

theorem valQ_lt_valQ : valQ fl a < valQ fl b ↔ valUnits fl a < valUnits fl b := by
  rw [valQ, valQ, div_lt_div_iff_of_pos_right oneUnits_pos_rat]
  exact_mod_cast Iff.rfl

theorem valQ_eq_natCast {n : Nat} : valQ fl x = n ↔ valUnits fl x = n * oneUnits fl := by
  rw [valQ, div_eq_iff oneUnits_pos_rat.ne']
  exact_mod_cast Iff.rfl

/-- A value is in [-1, 1] where the magnitude is at most that of 1. -/
theorem valQ_mem_unit (h : magUnits fl x ≤ oneUnits fl) : -1 ≤ valQ fl x ∧ valQ fl x ≤ 1 := by
  have hq : ((magUnits fl x : ℚ) / oneUnits fl) ≤ 1 :=
    (div_le_one oneUnits_pos_rat).mpr (by exact_mod_cast h)
  rw [← abs_le, valQ_eq_signQ_mul, abs_signQ_mul, abs_of_nonneg (by positivity)]
  exact hq

/-- Settles O51: the magnitude of each of the two kinds of finite words, divided by the units in 1. -/
theorem finiteWordValue : Obligations.FiniteWordValue := by
  intro fl x _ e f scale
  have hone : (oneUnits fl : ℚ) = scale * 2 ^ ((emax fl : Int) - 1) := by
    have hexp : (unitExp fl : Int) = fracBits fl + ((emax fl : Int) - 1) := by have := unitExp_eq fl; omega
    rw [oneUnits, Nat.cast_pow, Nat.cast_two, ← zpow_natCast, hexp, zpow_add₀ two_ne_zero, zpow_natCast]
  have hscale : scale ≠ 0 := pow_ne_zero _ two_ne_zero
  rw [valQ_eq_signQ_mul, hone, signQ]
  congr 1
  by_cases he : expField fl x = 0
  · rw [if_pos (Int.natCast_eq_zero.mpr he), magUnits, if_pos he,
      show (1 - (emax fl : Int)) = -((emax fl : Int) - 1) by ring, zpow_neg]
    field_simp
    rfl
  · have hpow : ((2 : ℚ) ^ (expField fl x - 1)) = 2 ^ (e - (emax fl : Int)) * 2 ^ ((emax fl : Int) - 1) := by
      rw [← zpow_add₀ two_ne_zero, ← zpow_natCast]
      congr 1
      omega
    rw [if_neg (Int.natCast_eq_zero.not.mpr he), magUnits, if_neg he]
    push_cast
    rw [hpow]
    field_simp
    rfl

/-! ### Comparison (R75) -/

/-- The units the model gives to `+inf`: the first beyond every finite magnitude. -/
def infUnits (fl : Flen) : Nat := 2 ^ (emax fl + 1) * oneUnits fl

theorem infUnits_pos : 0 < infUnits fl := Nat.mul_pos (Nat.two_pow_pos _) (oneUnits_pos fl)

/-- The kind of a word that is not a NaN shows in its units: `+inf` and `-inf` are the two ends of their range. -/
theorem valUnits_kind (h : fisnan fl x = false) :
    (-(infUnits fl : Int) ≤ valUnits fl x ∧ valUnits fl x ≤ infUnits fl)
    ∧ (isFinite fl x = true ↔ -(infUnits fl : Int) < valUnits fl x ∧ valUnits fl x < infUnits fl)
    ∧ (fisinf fl x = true ∧ signBit fl x = false ↔ valUnits fl x = infUnits fl)
    ∧ (fisinf fl x = true ∧ signBit fl x = true ↔ valUnits fl x = -(infUnits fl : Int)) := by
  have hpos := infUnits_pos (fl := fl)
  cases hf : isFinite fl x
  · have hinf : fisinf fl x = true := by simpa [h] using isFinite_eq_false.mp hf
    have hm : magUnits fl x = infUnits fl := magUnits_of_fisinf hinf
    cases hs : signBit fl x <;> simp [hinf, valUnits, hs, hm] <;> omega
  · have hlt : magUnits fl x < infUnits fl := magUnits_lt hf
    have habs := natAbs_valUnits (fl := fl) x
    simp only [fisinf_of_isFinite hf, Bool.false_eq_true, false_and, false_iff, true_iff]
    omega

/-- Settles O57: every condition on the kinds of the two words is one on their units. -/
theorem comparisonByValue : Obligations.ComparisonByValue := by
  intro fl a b
  refine ⟨?_, rfl, by simp [fisnan, expTop]⟩
  cases ha : fisnan fl a
  · cases hb : fisnan fl b
    · obtain ⟨hra, hfa, hposa, hnega⟩ := valUnits_kind ha
      obtain ⟨hrb, hfb, hposb, hnegb⟩ := valUnits_kind hb
      rw [← and_assoc (a := fisinf fl a = true), ← and_assoc (a := fisinf fl b = true), hfa, hfb, hposa, hposb, hnega,
        hnegb, valQ_lt_valQ]
      simp only [fgt, ha, hb, Bool.not_false, Bool.true_and, decide_eq_true_eq, true_and]
      omega
    · simp [fgt, hb]
  · simp [fgt, ha]

/-! ### Index conversion (R76) -/

theorem f2idx_eq_some {n : Nat} : f2idx fl a = some n ↔
    isFinite fl a = true ∧ valUnits fl a % (oneUnits fl : Int) = 0 ∧ floorInt fl a = n ∧ n ≤ 2 ^ 32 - 1 := by
  simp only [f2idx, Option.ite_none_right_eq_some, Option.some.injEq, Bool.and_eq_true, beq_iff_eq, decide_eq_true_eq,
    and_assoc]
  refine and_congr_right fun _ => and_congr_right fun _ => ?_
  omega

/-- Settles O58: an integral value is its floor. -/
theorem indexConversion : Obligations.IndexConversion := by
  intro fl a n
  have hone : (oneUnits fl : Int) ≠ 0 := by exact_mod_cast (oneUnits_pos fl).ne'
  rw [f2idx_eq_some, valQ_eq_natCast]
  constructor
  · rintro ⟨hf, hmod, hfloor, hn⟩
    exact ⟨hf, by rw [← hfloor]; exact (Int.ediv_mul_cancel (Int.dvd_of_emod_eq_zero hmod)).symm, hn⟩
  · rintro ⟨hf, hv, hn⟩
    exact ⟨hf, by rw [hv, Int.mul_emod_left], by rw [floorInt, hv, Int.mul_ediv_cancel _ hone], hn⟩

/-! ### The floor (R74) -/

theorem valQ_ffloor (h : isFinite fl x = true) : valQ fl (ffloor fl x) = ⌊valQ fl x⌋ := by
  rw [floor_valQ, valQ, (ffloor_spec h).2]
  push_cast
  exact mul_div_cancel_right₀ _ oneUnits_pos_rat.ne'

/-- Settles O56: the special cases in the order of R74; the exact floor and the exact fraction by their units. -/
theorem floorIsExact : Obligations.FloorIsExact := by
  intro fl a
  refine ⟨fun h => by simp [ffloor, h], fun h => ?_, fun hf h0 h1 => ?_,
    fun hf => ⟨(ffloor_spec hf).1, valQ_ffloor hf⟩, fun hf h0 => ?_⟩
  · have hn : fisnan fl a = false := h.elim fisnan_of_fisinf fun hz => fisnan_of_isFinite (isFinite_of_fiszero hz)
    simp [ffloor, hn, h]
  · have hn : floorInt fl a = 0 := by rw [← floor_valQ, Int.floor_eq_zero_iff]; exact ⟨h0.le, h1⟩
    have hz : fiszero fl a = false := Bool.eq_false_iff.mpr fun hz => by
      simp [valQ, valUnits_of_fiszero hz] at h0
    simp [ffloor, fisnan_of_isFinite hf, fisinf_of_isFinite hf, hz, hn]
  · obtain ⟨hff, -, -, hexact⟩ := fsub_ffloor hf
    exact ⟨hff, by rw [valQ_sub_floor, valQ, hexact (valQ_nonneg.mp h0)]⟩

/-! ### The sine (R84) -/

/-- What `boundSine` answers is finite and at most 1 in magnitude, whatever the raw value. -/
theorem boundSine_spec (r : Sample) :
    isFinite fl (boundSine fl r) = true ∧ magUnits fl (boundSine fl r) ≤ oneUnits fl := by
  unfold boundSine
  simp only
  split
  · rename_i h; simpa using h
  · exact ⟨isFinite_zeroT, by rw [zeroT_eq, magUnits_of_fiszero (fiszero_zeroOf false)]; exact Nat.zero_le _⟩

theorem fsin_of_not_isFinite {sine : Sine} (h : isFinite fl x = false) : fsin sine fl x = cnanT fl := by simp [fsin, h]

theorem fsin_of_fiszero {sine : Sine} (h : fiszero fl x = true) : fsin sine fl x = x := by
  simp [fsin, isFinite_of_fiszero h, h]

/-- The sine of a finite word is a finite word of at most the magnitude 1 (S2). -/
theorem fsin_of_isFinite {sine : Sine} (h : isFinite fl x = true) :
    isFinite fl (fsin sine fl x) = true ∧ magUnits fl (fsin sine fl x) ≤ oneUnits fl := by
  by_cases hz : fiszero fl x = true
  · rw [fsin_of_fiszero hz, magUnits_of_fiszero hz]
    exact ⟨h, Nat.zero_le _⟩
  · simp only [fsin, h, hz]
    exact boundSine_spec _

/-- Settles O49: one branch of `fsin` for each property. -/
theorem sineProperties : Obligations.SineProperties := by
  intro sine fl
  refine ⟨fun a ha => ?_, fun a ha => fsin_of_not_isFinite ha, fsin_of_fiszero (fiszero_zeroOf _),
    fsin_of_fiszero (fiszero_zeroOf _)⟩
  obtain ⟨hf, hm⟩ := fsin_of_isFinite (sine := sine) ha
  exact ⟨hf, valQ_mem_unit hm⟩

/-! ### The constants of pi (R69) -/

/-- The value of `PI_T`, as R69 writes it out. -/
theorem valQ_piT : valQ fl (piT fl) = match fl with
    | .f32 => 13176795 / 2 ^ 22
    | .f64 => 7074237752028440 / 2 ^ 51 := by
  cases fl <;> decide +kernel

theorem valQ_twoPiT : valQ fl (twoPiT fl) = 2 * valQ fl (piT fl) := by cases fl <;> decide +kernel

/-- `PI_T` is within half a spacing of pi. -/
theorem abs_piT_sub_pi_lt : |((valQ fl (piT fl) : ℚ) : ℝ) - Real.pi| < 2 / 2 ^ (fracBits fl + 1) := by
  have hlo := Real.pi_gt_d20
  have hhi := Real.pi_lt_d20
  rw [valQ_piT, abs_lt]
  cases fl <;> norm_num [fracBits] <;> constructor <;> linarith

/-- Settles O60: by the first twenty decimals of pi; twice the constant is twice as far from twice pi. -/
theorem piConstantsAreNearest : Obligations.PiConstantsAreNearest := by
  intro fl
  refine ⟨abs_piT_sub_pi_lt, ?_, valQ_twoPiT⟩
  have h := abs_piT_sub_pi_lt (fl := fl)
  rw [valQ_twoPiT, Rat.cast_mul, Rat.cast_ofNat, ← mul_sub, abs_mul, abs_two]
  calc 2 * |((valQ fl (piT fl) : ℚ) : ℝ) - Real.pi| < 2 * (2 / 2 ^ (fracBits fl + 1)) := by linarith
    _ = 4 / 2 ^ (fracBits fl + 1) := by ring

end Sys2Proof.Machine

/-! PROOFS. Rounding (40_numerics R67, R79): the rounded units are the nearest of the numbers of at most `t + 1` bits times a
power of two, ties to the even fraction field. The overflow threshold follows: it is halfway between the greatest finite
magnitude, whose fraction field is odd, and the power of two above. -/

namespace Sys2Proof.Machine

variable {fl : Flen} {sign : Bool} {num den : Nat}

/-- How far `m` is from `num / den`, as a multiple of `1 / den`. -/
def distFrom (num den : Nat) (m : Int) : Nat := (m * den - num).natAbs

/-- `m` is a magnitude of the format, were its exponents unbounded above: at most `t + 1` bits times a power of two. -/
def IsShort (fl : Flen) (m : Nat) : Prop := ∃ q e, q < 2 ^ (fracBits fl + 1) ∧ m = q * 2 ^ e

theorem isShort_magUnits (x : Sample) : IsShort fl (magUnits fl x) :=
  let ⟨q, hq, hm⟩ := magUnits_form (fl := fl) x
  ⟨q, _, hq, hm⟩

theorem isShort_roundedUnits (hd : 0 < den) : IsShort fl (roundedUnits fl num den) := roundedUnits_form hd

theorem isShort_two_pow (k : Nat) : IsShort fl (2 ^ k) := ⟨1, k, Nat.one_lt_two_pow (by omega), (Nat.one_mul _).symm⟩

theorem isShort_zero : IsShort fl 0 := ⟨0, 0, Nat.two_pow_pos _, (Nat.zero_mul _).symm⟩

/-- Below a power of two there is a gap of one spacing. -/
theorem IsShort.le_of_lt {m h : Nat} (hm : IsShort fl m) (hlt : m < 2 ^ (fracBits fl + 1) * 2 ^ h) :
    m ≤ (2 ^ (fracBits fl + 1) - 1) * 2 ^ h := by
  obtain ⟨q, e, hq, rfl⟩ := hm
  rcases Nat.le_total e h with he | he
  · exact Nat.mul_le_mul (by omega) (Nat.pow_le_pow_right (by omega) he)
  · have hsplit : q * 2 ^ e = q * 2 ^ (e - h) * 2 ^ h := by rw [Nat.mul_assoc, ← pow_add, Nat.sub_add_cancel he]
    rw [hsplit] at hlt ⊢
    have := Nat.lt_of_mul_lt_mul_right hlt
    exact Nat.mul_le_mul_right _ (by omega)

/-! ### The nearest number -/

/-- The rounded integer is at most half a step away, and even where it is half a step away. -/
theorem nearestEven_half (hd : 0 < den) :
    2 * distFrom num den (nearestEven num den) ≤ den ∧
    (2 * distFrom num den (nearestEven num den) = den → nearestEven num den % 2 = 0) := by
  have hr := Nat.mod_lt num hd
  have hnum := Nat.div_add_mod num den
  rw [Nat.mul_comm] at hnum
  unfold distFrom nearestEven
  simp only
  split
  · rw [Int.natCast_succ, Int.add_mul, Int.one_mul]; omega
  · omega

/-- No integer is nearer than the rounded one; where another is as near, the rounded one is even. -/
theorem nearestEven_nearest (hd : 0 < den) (j : Int) :
    distFrom num den (nearestEven num den) < distFrom num den j ∨
    (distFrom num den (nearestEven num den) = distFrom num den j ∧
      (j = nearestEven num den ∨ nearestEven num den % 2 = 0)) := by
  obtain ⟨hhalf, heven⟩ := nearestEven_half (num := num) hd
  have hstep : j ≠ nearestEven num den → den ≤ ((j - nearestEven num den) * den).natAbs := fun hj => by
    rw [Int.natAbs_mul, Int.natAbs_natCast]
    exact Nat.le_mul_of_pos_left _ (by omega)
  rw [Int.sub_mul] at hstep
  unfold distFrom at *
  by_cases hj : j = nearestEven num den
  · exact .inr ⟨by rw [hj], .inl hj⟩
  · have := hstep hj
    omega

/-- A magnitude of the format that is no multiple of the spacing is below `num / den`, with a multiple between. -/
theorem IsShort.spacing_dvd_or {m : Nat} (hd : 0 < den) (hm : IsShort fl m) :
    roundSpacing fl num den ∣ m ∨
    (m < 2 ^ fracBits fl * roundSpacing fl num den ∧ 2 ^ fracBits fl * roundSpacing fl num den * den ≤ num) := by
  obtain ⟨q, e, hq, rfl⟩ := hm
  obtain ⟨k, hk⟩ : ∃ k, k = Nat.log2 (num / den) - fracBits fl := ⟨_, rfl⟩
  rw [roundSpacing, ← hk]
  rcases Nat.lt_or_ge e k with he | he
  · right
    have hlog : Nat.log2 (num / den) = fracBits fl + k := by omega
    have hne : num / den ≠ 0 := fun h0 => by rw [h0, Nat.log2_zero] at hlog; omega
    rw [← pow_add]
    refine ⟨?_, (Nat.le_div_iff_mul_le hd).mp (hlog ▸ Nat.log2_self_le hne)⟩
    calc q * 2 ^ e < 2 ^ (fracBits fl + 1) * 2 ^ e := Nat.mul_lt_mul_of_pos_right hq (Nat.two_pow_pos _)
      _ = 2 ^ (fracBits fl + 1 + e) := (pow_add _ _ _).symm
      _ ≤ 2 ^ (fracBits fl + k) := Nat.pow_le_pow_right (by omega) (by omega)
  · exact .inl (Dvd.dvd.mul_left (pow_dvd_pow 2 he) q)

/-- The multiple of the spacing has at most `t + 1` bits, or is the power of two above. -/
theorem nearestEven_spacing_le (hd : 0 < den) :
    nearestEven num (den * roundSpacing fl num den) ≤ 2 ^ (fracBits fl + 1) := by
  refine nearestEven_le (Nat.mul_pos hd (roundSpacing_pos num den)) ?_
  have hlt : num / den < 2 ^ (fracBits fl + 1) * roundSpacing fl num den := by
    rw [roundSpacing, ← pow_add]
    exact Nat.lt_log2_self.trans_le (Nat.pow_le_pow_right (by omega) (by omega))
  calc num ≤ 2 ^ (fracBits fl + 1) * roundSpacing fl num den * den := ((Nat.div_lt_iff_lt_mul hd).mp hlt).le
    _ = _ := by ring

/-- The encoding of an even multiple of a spacing is even. -/
theorem encodeMag_even {n k : Nat} (hn : n ≤ 2 ^ (fracBits fl + 1)) (heven : 2 ∣ n) :
    2 ∣ encodeMag fl (n * 2 ^ k) := by
  have ht : 2 ∣ 2 ^ fracBits fl := dvd_pow_self 2 (by cases fl <;> decide)
  refine Nat.dvd_add (Dvd.dvd.mul_left ht _) ?_
  rcases hn.lt_or_eq with hlt | rfl
  · have hle : Nat.log2 (n * 2 ^ k) - fracBits fl ≤ k := by
      rcases Nat.eq_zero_or_pos (n * 2 ^ k) with h0 | hpos
      · simp [h0]
      · have hlog : Nat.log2 (n * 2 ^ k) < fracBits fl + 1 + k := by
          rw [Nat.log2_lt hpos.ne', pow_add]; exact Nat.mul_lt_mul_of_pos_right hlt (Nat.two_pow_pos _)
        omega
    rw [Nat.mul_div_assoc _ (pow_dvd_pow 2 hle)]
    exact Dvd.dvd.mul_right heven _
  · have hlog : Nat.log2 (2 ^ (fracBits fl + 1) * 2 ^ k) - fracBits fl = k + 1 := by
      rw [← pow_add, Nat.log2_two_pow]; omega
    rw [hlog, show 2 ^ (fracBits fl + 1) * 2 ^ k = 2 ^ fracBits fl * 2 ^ (k + 1) by ring,
      Nat.mul_div_cancel _ (Nat.two_pow_pos _)]
    exact ht

/-- No magnitude of the format is nearer than the rounded units; where another is as near, their encoding is even. -/
theorem roundedUnits_nearest (hd : 0 < den) {m : Nat} (hm : IsShort fl m) :
    distFrom num den (roundedUnits fl num den) < distFrom num den m ∨
    (distFrom num den (roundedUnits fl num den) = distFrom num den m ∧
      (m = roundedUnits fl num den ∨ 2 ∣ encodeMag fl (roundedUnits fl num den))) := by
  have hds : 0 < den * roundSpacing fl num den := Nat.mul_pos hd (roundSpacing_pos num den)
  have hscale : ∀ j : Nat, distFrom num (den * roundSpacing fl num den) j =
      distFrom num den (j * roundSpacing fl num den : Nat) := fun j => by
    unfold distFrom; push_cast; congr 1; ring
  have hmultiple := fun j : Nat => nearestEven_nearest (num := num) hds j
  simp only [hscale] at hmultiple
  rcases hm.spacing_dvd_or (num := num) hd with hdvd | ⟨hlt, hle⟩
  · obtain ⟨j, rfl⟩ := hdvd
    rw [Nat.mul_comm (roundSpacing fl num den) j]
    refine (hmultiple j).imp_right (And.imp_right (Or.imp (fun hj => ?_) fun heven => ?_))
    · rw [roundedUnits, ← Int.natCast_inj.mp hj]
    · exact encodeMag_even (nearestEven_spacing_le hd) (Nat.dvd_of_mod_eq_zero heven)
  · left
    have hnear : distFrom num den (roundedUnits fl num den) ≤
        distFrom num den (2 ^ fracBits fl * roundSpacing fl num den : Nat) :=
      (hmultiple _).elim le_of_lt fun h => h.1.le
    refine hnear.trans_lt ?_
    have hmul := Nat.mul_lt_mul_of_pos_right hlt hd
    unfold distFrom
    rw [← Int.natCast_mul, ← Int.natCast_mul]
    omega

/-- The same among the magnitudes of both signs. -/
theorem roundedUnits_nearest_int (hd : 0 < den) {m : Int} (hm : IsShort fl m.natAbs) :
    distFrom num den (roundedUnits fl num den) < distFrom num den m ∨
    (distFrom num den (roundedUnits fl num den) = distFrom num den m ∧
      (m = roundedUnits fl num den ∨ 2 ∣ encodeMag fl (roundedUnits fl num den))) := by
  rcases Int.lt_or_le m 0 with hneg | hpos
  · left
    have hzero := roundedUnits_nearest (num := num) hd (isShort_zero (fl := fl))
    have hmul : m * den < 0 := Int.mul_neg_of_neg_of_pos hneg (by omega)
    unfold distFrom at *
    omega
  · obtain ⟨n, rfl⟩ := Int.eq_ofNat_of_zero_le hpos
    exact_mod_cast roundedUnits_nearest hd hm

/-! ### The overflow threshold -/

/-- Of two numbers the nearer is told by their midpoint. -/
theorem distFrom_lt_iff (hd : 0 < den) {lo hi : Nat} (h : lo < hi) :
    (distFrom num den lo < distFrom num den hi ↔ 2 * num < (lo + hi) * den) ∧
    (distFrom num den hi < distFrom num den lo ↔ (lo + hi) * den < 2 * num) := by
  have := Nat.mul_lt_mul_of_pos_right h hd
  rw [Nat.add_mul]
  unfold distFrom
  rw [← Int.natCast_mul, ← Int.natCast_mul]
  omega

/-- The greatest finite magnitude, one spacing below `infUnits`. -/
def maxUnits (fl : Flen) : Nat := (2 ^ (fracBits fl + 1) - 1) * 2 ^ (2 * emax fl - 1)

theorem infUnits_eq : infUnits fl = 2 ^ (fracBits fl + 1) * 2 ^ (2 * emax fl - 1) := by
  have hunit := unitExp_eq fl
  have hpos := emax_pos fl
  rw [infUnits, oneUnits, ← pow_add, ← pow_add]
  congr 1
  omega

theorem maxUnits_lt : maxUnits fl < infUnits fl := by
  rw [infUnits_eq]
  exact Nat.mul_lt_mul_of_pos_right (Nat.sub_lt (Nat.two_pow_pos _) Nat.one_pos) (Nat.two_pow_pos _)

theorem isShort_infUnits : IsShort fl (infUnits fl) := by rw [infUnits, oneUnits, ← pow_add]; exact isShort_two_pow _

theorem isShort_maxUnits : IsShort fl (maxUnits fl) := ⟨_, _, Nat.sub_lt (Nat.two_pow_pos _) Nat.one_pos, rfl⟩

theorem IsShort.le_maxUnits {m : Nat} (hm : IsShort fl m) (h : m < infUnits fl) : m ≤ maxUnits fl :=
  hm.le_of_lt (infUnits_eq ▸ h)

/-- The greatest finite magnitude has an odd fraction field, so a tie there is not its own. -/
theorem encodeMag_maxUnits_odd : ¬ 2 ∣ encodeMag fl (maxUnits fl) := by cases fl <;> decide +kernel

/-- The rounded units overflow from the midpoint between the greatest finite magnitude and `infUnits` on. -/
theorem infUnits_le_roundedUnits_iff (hd : 0 < den) :
    infUnits fl ≤ roundedUnits fl num den ↔ (maxUnits fl + infUnits fl) * den ≤ 2 * num := by
  constructor
  · intro hle
    have hnear := roundedUnits_nearest (num := num) hd (isShort_maxUnits (fl := fl))
    have hmid := (distFrom_lt_iff (num := num) hd (maxUnits_lt.trans_le hle)).1
    have := Nat.mul_le_mul_right den (Nat.add_le_add_left hle (maxUnits fl))
    omega
  · intro hle
    by_contra hlt
    rw [Nat.not_le] at hlt
    have hmax := (isShort_roundedUnits hd).le_maxUnits hlt
    have hnear := roundedUnits_nearest (num := num) hd (isShort_infUnits (fl := fl))
    have hmid := distFrom_lt_iff (num := num) hd hlt
    have hmono := Nat.mul_le_mul_right den (Nat.add_le_add_right hmax (infUnits fl))
    rcases hnear with hnear | ⟨htie, hself | heven⟩
    · have := hmid.1.mp hnear; omega
    · omega
    · have hsum : (maxUnits fl + infUnits fl) * den ≤ (roundedUnits fl num den + infUnits fl) * den := by omega
      have heq : roundedUnits fl num den = maxUnits fl := by
        have := Nat.le_of_mul_le_mul_right hsum hd; omega
      exact encodeMag_maxUnits_odd (heq ▸ heven)

/-! ### `round_T` (R67) -/

theorem roundT_of_infUnits_le (h : infUnits fl ≤ roundedUnits fl num den) : roundT fl sign num den = infOf fl sign :=
  if_pos h

theorem roundT_of_lt_infUnits (h : roundedUnits fl num den < infUnits fl) :
    roundT fl sign num den = packWord fl sign (encodeMag fl (roundedUnits fl num den)) := if_neg (Nat.not_le.mpr h)

theorem fracField_encodeMag {m : Nat} (h : m < infUnits fl) (heven : 2 ∣ encodeMag fl m) :
    fracField fl (packWord fl sign (encodeMag fl m)) % 2 = 0 := by
  have ht : 2 ∣ 2 ^ fracBits fl := dvd_pow_self 2 (by cases fl <;> decide)
  rw [fracField_packWord (encodeMag_lt_sign h), Nat.mod_mod_of_dvd _ ht]
  exact Nat.mod_eq_zero_of_dvd heven

/-- The threshold of R67 is the midpoint between the greatest finite value and the value of `infUnits`. -/
theorem overflowQ_eq : overflowQ fl = (maxUnits fl + infUnits fl : Nat) / 2 / oneUnits fl := by
  obtain ⟨k, hk⟩ : ∃ k, emax fl = k + 1 := ⟨emax fl - 1, by have := emax_pos fl; omega⟩
  have hunit : unitExp fl = fracBits fl + k := by have := unitExp_eq fl; omega
  rw [infUnits_eq, maxUnits, oneUnits, overflowQ, hunit, hk, show 2 * (k + 1) - 1 = k + k + 1 by omega]
  push_cast [Nat.one_le_two_pow]
  field_simp
  ring

theorem overflowQ_le_iff (hd : 0 < den) :
    overflowQ fl ≤ num / den / oneUnits fl ↔ infUnits fl ≤ roundedUnits fl num den := by
  have hdQ : (0 : ℚ) < den := by exact_mod_cast hd
  rw [infUnits_le_roundedUnits_iff hd, overflowQ_eq, div_le_div_iff_of_pos_right oneUnits_pos_rat,
    div_le_div_iff₀ two_pos hdQ, mul_comm (num : ℚ)]
  exact_mod_cast Iff.rfl

/-- Distances of values are distances of units. -/
theorem abs_signQ_sub (hd : 0 < den) (m : Int) :
    |signQ sign * (m / oneUnits fl) - signQ sign * (num / den / oneUnits fl)| =
      distFrom num den m / (den * oneUnits fl) := by
  have hdQ : (0 : ℚ) < den := by exact_mod_cast hd
  have hone := oneUnits_pos_rat (fl := fl)
  have hquot : (m : ℚ) / oneUnits fl - num / den / oneUnits fl =
      ((m * den - num : Int) : ℚ) / (den * oneUnits fl) := by
    push_cast; field_simp
  rw [← mul_sub, abs_signQ_mul, hquot, abs_div, abs_of_pos (mul_pos hdQ hone), ← Int.cast_abs, distFrom,
    Nat.cast_natAbs]

/-- A value is either sign times a number of units. -/
theorem valQ_eq_signQ_mul_int (sign : Bool) (y : Sample) :
    ∃ m : Int, m.natAbs = magUnits fl y ∧ valQ fl y = signQ sign * (m / oneUnits fl) := by
  rw [valQ_eq_signQ_mul]
  by_cases hs : signBit fl y = sign
  · exact ⟨magUnits fl y, by simp, by rw [hs]; simp⟩
  · refine ⟨-magUnits fl y, by simp, ?_⟩
    rw [Bool.eq_not.mpr hs]
    cases sign <;> simp [signQ] <;> ring

/-- `roundT` rounds the number of its arguments as R67 says. -/
theorem roundT_roundsTo (sign : Bool) (hn : 0 < num) (hd : 0 < den) :
    RoundsTo fl (signQ sign * (num / den / oneUnits fl)) (roundT fl sign num den) := by
  have hpos : (0 : ℚ) < num / den / oneUnits fl :=
    div_pos (div_pos (by exact_mod_cast hn) (by exact_mod_cast hd)) oneUnits_pos_rat
  rw [RoundsTo, decide_signQ_mul_neg hpos, abs_signQ_mul, abs_of_pos hpos]
  split
  · rename_i hover
    rw [overflowQ_le_iff hd] at hover
    rw [roundT_of_infUnits_le hover]
    exact ⟨signBit_infOf sign, fisinf_infOf sign⟩
  · rename_i hlt
    rw [overflowQ_le_iff hd, Nat.not_le] at hlt
    obtain ⟨hf, hs, hm⟩ := roundT_of_lt (sign := sign) hd hlt
    refine ⟨hs, hf, fun y _ => ?_⟩
    obtain ⟨m, hmag, hy⟩ := valQ_eq_signQ_mul_int (fl := fl) sign y
    have hw : valQ fl (roundT fl sign num den) = signQ sign * ((roundedUnits fl num den : Int) / oneUnits fl) := by
      rw [valQ_eq_signQ_mul, hs, hm]; rfl
    have hone : (0 : ℚ) < den * oneUnits fl := mul_pos (by exact_mod_cast hd) oneUnits_pos_rat
    rw [hw, hy, abs_signQ_sub hd, abs_signQ_sub hd, div_lt_div_iff_of_pos_right hone, div_left_inj' hone.ne',
      Nat.cast_lt, Nat.cast_inj]
    refine (roundedUnits_nearest_int hd (hmag ▸ isShort_magUnits y)).imp_right (And.imp_right (Or.imp ?_ ?_))
    · rintro rfl; rfl
    · intro heven
      rw [roundT_of_lt_infUnits hlt]
      exact fracField_encodeMag hlt heven

/-- Settles O52: `roundT_roundsTo`. -/
theorem roundingIsNearestEven : Obligations.RoundingIsNearestEven := by
  intro fl sign num den hn hd
  have h := roundT_roundsTo (fl := fl) sign hn hd
  rwa [← mul_div_assoc] at h

end Sys2Proof.Machine

/-! PROOFS. The operations by the cases of their rules (40_numerics R70, R72, R73), the last case of each one rounding of the exact
result; and that a NaN result is always `CNAN_T` (R68). -/

namespace Sys2Proof.Machine

variable {fl : Flen} {a b x : Sample}

/-! ### The exact results -/

theorem intCast_eq_signQ_mul (z : Int) : (z : ℚ) = signQ (decide (z < 0)) * z.natAbs := by
  rcases Int.lt_or_le z 0 with h | h
  · simp [signQ, h, abs_of_neg (Int.cast_lt_zero.mpr h)]
  · have hQ : (0 : ℚ) ≤ z := by exact_mod_cast h
    simp [signQ, Int.not_lt.mpr h, abs_of_nonneg hQ]

theorem valQ_add_valQ (a b : Sample) :
    valQ fl a + valQ fl b = ((valUnits fl a + valUnits fl b : Int) : ℚ) / oneUnits fl := by
  rw [valQ, valQ, ← add_div]; push_cast; rfl

theorem valQ_add_eq_zero : valQ fl a + valQ fl b = 0 ↔ valUnits fl a + valUnits fl b = 0 := by
  rw [valQ_add_valQ, div_eq_zero_iff, or_iff_left oneUnits_pos_rat.ne', Int.cast_eq_zero]

theorem fadd_roundsTo (ha : isFinite fl a = true) (hb : isFinite fl b = true) (hne : valQ fl a + valQ fl b ≠ 0) :
    RoundsTo fl (valQ fl a + valQ fl b) (fadd fl a b) := by
  rw [ne_eq, valQ_add_eq_zero] at hne
  rcases fadd_of_isFinite ha hb with ⟨h0, -⟩ | ⟨-, hsum⟩
  · exact absurd h0 hne
  · have h := roundT_roundsTo (fl := fl) (decide (valUnits fl a + valUnits fl b < 0)) (Int.natAbs_pos.mpr hne)
      Nat.one_pos
    rw [Nat.cast_one, div_one, ← mul_div_assoc, ← intCast_eq_signQ_mul, ← valQ_add_valQ] at h
    rwa [hsum]

theorem fmul_roundsTo (ha : isFinite fl a = true) (hb : isFinite fl b = true) (hza : fiszero fl a = false)
    (hzb : fiszero fl b = false) : RoundsTo fl (valQ fl a * valQ fl b) (fmul fl a b) := by
  have hprod : fmul fl a b =
      roundT fl (signBit fl a != signBit fl b) (magUnits fl a * magUnits fl b) (oneUnits fl) := by
    simp [fmul, fisnan_of_isFinite, fisinf_of_isFinite, ha, hb, hza, hzb]
  have hval : valQ fl a * valQ fl b = signQ (signBit fl a != signBit fl b) *
      ((magUnits fl a * magUnits fl b : Nat) / oneUnits fl / oneUnits fl) := by
    rw [valQ_eq_signQ_mul, valQ_eq_signQ_mul, signQ_bne]; push_cast; ring
  rw [hprod, hval]
  exact roundT_roundsTo _ (Nat.mul_pos (magUnits_pos hza) (magUnits_pos hzb)) (oneUnits_pos fl)

theorem fdiv_roundsTo (ha : isFinite fl a = true) (hb : isFinite fl b = true) (hza : fiszero fl a = false)
    (hzb : fiszero fl b = false) : RoundsTo fl (valQ fl a / valQ fl b) (fdiv fl a b) := by
  have hquot : fdiv fl a b =
      roundT fl (signBit fl a != signBit fl b) (magUnits fl a * oneUnits fl) (magUnits fl b) := by
    simp [fdiv, fisnan_of_isFinite, fisinf_of_isFinite, ha, hb, hza, hzb]
  have hval : valQ fl a / valQ fl b = signQ (signBit fl a != signBit fl b) *
      ((magUnits fl a * oneUnits fl : Nat) / magUnits fl b / oneUnits fl) := by
    have hone := oneUnits_pos_rat (fl := fl)
    have hmag : (0 : ℚ) < magUnits fl b := by exact_mod_cast magUnits_pos hzb
    have hinv : (signQ (signBit fl b))⁻¹ = signQ (signBit fl b) := by cases signBit fl b <;> norm_num [signQ]
    rw [valQ_eq_signQ_mul, valQ_eq_signQ_mul, signQ_bne, mul_div_mul_comm, div_eq_mul_inv (signQ _), hinv]
    push_cast
    field_simp
  rw [hquot, hval]
  exact roundT_roundsTo _ (Nat.mul_pos (magUnits_pos hza) (oneUnits_pos fl)) (magUnits_pos hzb)

/-! ### The cases of the rules -/

/-- Settles O53: the cases of R70 in its order; the last is `fadd_roundsTo`. -/
theorem additionRounds : Obligations.AdditionRounds := by
  intro fl a b
  refine ⟨fun h => ?nan, fun ha hb hs => ?opposite, fun ha hb hs => ?infLeft, fun ha hb => ?infRight,
    fun ha hb => ?zeros, fun ha hb hz h0 => ?cancel, fadd_roundsTo⟩
  case nan => simp [fadd, h]
  case opposite => simp [fadd, ha, hb, hs, fisnan_of_fisinf]
  case infLeft =>
    have hs' : fisinf fl b = true → signBit fl a = signBit fl b := fun hb => by_contra fun hne => hs ⟨hb, hne⟩
    simp +contextual [fadd, ha, hb, hs', fisnan_of_fisinf]
  case infRight => simp [fadd, ha, hb, fisnan_of_fisinf, fisnan_of_isFinite, fisinf_of_isFinite]
  case zeros => simp [fadd, ha, hb, fisnan_of_isFinite, fisinf_of_isFinite, isFinite_of_fiszero]
  case cancel =>
    simp [fadd, ha, hb, hz, valQ_add_eq_zero.mp h0, fisnan_of_isFinite, fisinf_of_isFinite]

/-- Settles O54: the cases of R72 in its order; the last is `fmul_roundsTo`. -/
theorem multiplicationRounds : Obligations.MultiplicationRounds := by
  intro fl a b sg
  refine ⟨fun h => ?nan, fun h => ?invalid, fun ha hb hza hzb h => ?inf, fun ha hb h => ?zero, fmul_roundsTo⟩
  case nan => simp [fmul, h]
  case invalid =>
    rcases h with ⟨ha, hb⟩ | ⟨ha, hb⟩ <;>
      simp [fmul, ha, hb, fisnan_of_fisinf, fisnan_of_isFinite, isFinite_of_fiszero]
  case inf => simp [fmul, ha, hb, hza, hzb, h, sg]
  case zero => simp [fmul, ha, hb, h, sg, fisnan_of_isFinite, fisinf_of_isFinite]

/-- Settles O55: the cases of R73 in its order; the last is `fdiv_roundsTo`. -/
theorem divisionRounds : Obligations.DivisionRounds := by
  intro fl a b sg
  refine ⟨fun h => ?nan, fun h => ?invalid, fun ha hb => ?infLeft, fun ha hb => ?infRight, fun ha hza hb => ?byZero,
    fun ha hb hzb => ?zeroLeft, fdiv_roundsTo⟩
  case nan => simp [fdiv, h]
  case invalid =>
    rcases h with ⟨ha, hb⟩ | ⟨ha, hb⟩ <;>
      simp [fdiv, ha, hb, fisnan_of_fisinf, fisnan_of_isFinite, isFinite_of_fiszero]
  case infLeft =>
    simp [fdiv, ha, hb, sg, fisnan_of_fisinf, fiszero_of_fisinf, fisnan_of_isFinite, fisinf_of_isFinite]
  case infRight =>
    simp [fdiv, ha, hb, sg, fisnan_of_fisinf, fiszero_of_fisinf, fisnan_of_isFinite, fisinf_of_isFinite]
  case byZero =>
    simp [fdiv, ha, hza, hb, sg, fisnan_of_isFinite, fisinf_of_isFinite, isFinite_of_fiszero]
  case zeroLeft =>
    simp [fdiv, ha, hb, hzb, sg, fisnan_of_isFinite, fisinf_of_isFinite, isFinite_of_fiszero]

/-! ### NaN results (R68) -/

/-- If the word is a NaN, it is `CNAN_T`. -/
def CanonicalIfNan (fl : Flen) (x : Sample) : Prop := fisnan fl x = true → x = cnanT fl

theorem CanonicalIfNan.cnanT : CanonicalIfNan fl (cnanT fl) := fun _ => rfl

theorem CanonicalIfNan.of_not_nan (h : fisnan fl x = false) : CanonicalIfNan fl x := fun hx => by simp [h] at hx

theorem CanonicalIfNan.of_isFinite (h : isFinite fl x = true) : CanonicalIfNan fl x := .of_not_nan (fisnan_of_isFinite h)

theorem CanonicalIfNan.of_fisinf (h : fisinf fl x = true) : CanonicalIfNan fl x := .of_not_nan (fisnan_of_fisinf h)

theorem CanonicalIfNan.zeroOf (sign : Bool) : CanonicalIfNan fl (zeroOf fl sign) := .of_isFinite (isFinite_zeroOf sign)

theorem CanonicalIfNan.infOf (sign : Bool) : CanonicalIfNan fl (infOf fl sign) := .of_fisinf (fisinf_infOf sign)

/-- Rounding a number never gives a NaN. -/
theorem CanonicalIfNan.roundT {sign : Bool} {num den : Nat} : CanonicalIfNan fl (roundT fl sign num den) := by
  rcases Nat.lt_or_ge (roundedUnits fl num den) (infUnits fl) with h | h
  · rw [roundT_of_lt_infUnits h]
    exact .of_isFinite (isFinite_encodeMag h)
  · rw [roundT_of_infUnits_le h]
    exact .infOf sign

theorem canonicalIfNan_fadd (a b : Sample) : CanonicalIfNan fl (fadd fl a b) := by
  unfold fadd
  simp only
  split
  · exact .cnanT
  split
  · exact .cnanT
  split
  · exact .of_fisinf ‹_›
  split
  · exact .of_fisinf ‹_›
  split
  · exact .zeroOf _
  split
  · exact .zeroOf _
  · exact .roundT

theorem canonicalIfNan_fmul (a b : Sample) : CanonicalIfNan fl (fmul fl a b) := by
  unfold fmul
  simp only
  split
  · exact .cnanT
  split
  · exact .cnanT
  split
  · exact .infOf _
  split
  · exact .zeroOf _
  · exact .roundT

theorem canonicalIfNan_fdiv (a b : Sample) : CanonicalIfNan fl (fdiv fl a b) := by
  unfold fdiv
  simp only
  split
  · exact .cnanT
  split
  · exact .cnanT
  split
  · exact .infOf _
  split
  · exact .zeroOf _
  split
  · exact .infOf _
  split
  · exact .zeroOf _
  · exact .roundT

theorem canonicalIfNan_ffloor (a : Sample) : CanonicalIfNan fl (ffloor fl a) := by
  cases hf : isFinite fl a
  · rcases isFinite_eq_false.mp hf with h | h
    · simpa [ffloor, h] using CanonicalIfNan.cnanT
    · simpa [ffloor, h, fisnan_of_fisinf h] using CanonicalIfNan.of_fisinf h
  · exact .of_isFinite (ffloor_spec hf).1

theorem canonicalIfNan_fsin (sine : Sine) (a : Sample) : CanonicalIfNan fl (fsin sine fl a) := by
  cases hf : isFinite fl a
  · rw [fsin_of_not_isFinite hf]
    exact .cnanT
  · exact .of_isFinite (fsin_of_isFinite hf).1

/-- Settles O59: every branch of an operation answers `CNAN_T` or a word that is no NaN. -/
theorem nanResultsAreCanonical : Obligations.NanResultsAreCanonical := fun sine _ a b =>
  ⟨canonicalIfNan_fadd a b, canonicalIfNan_fadd a _, canonicalIfNan_fmul a b, canonicalIfNan_fdiv a b,
    canonicalIfNan_ffloor a, canonicalIfNan_fsin sine a⟩

end Sys2Proof.Machine

/-! PROOFS. The delay-line commands under R23 (41_delay_line R90 to R94, R101): none of them stops, the effect of each that
completes, and the delay line after a write as the history of its channel (R95 to R97). -/

namespace Sys2Proof.Machine

variable {s t : State} {c : Config} {d : DelayLine} {ch : Index}

/-! ### No command stops (R101) -/

/-- The model does not stop: there is a next state, whether the command completes, faults or is discarded. -/
def Answers (r : Result) : Prop := ∃ t, r = .next t

theorem answers_next (t : State) : Answers (.next t) := ⟨t, rfl⟩

theorem answers_raise (cause : Cause) (v : BitVec 64) (s : State) : Answers (raise cause v s) := answers_next _

theorem answers_complete (v : BitVec 64) (s : State) : Answers (complete v s) := answers_next _

theorem Answers.ite {p : Prop} [Decidable p] {a b : Result} (ha : p → Answers a) (hb : ¬ p → Answers b) :
    Answers (if p then a else b) := by
  split
  · exact ha ‹_›
  · exact hb ‹_›

theorem Answers.unlessHalted {k : Result} (h : Answers k) : Answers (unlessHalted s k) :=
  .ite (fun _ => answers_next _) fun _ => h

theorem Answers.withDelayLine {op : Opcode} {k : DelayLine → Result} (h : ∀ d, s.dl = some d → Answers (k d)) :
    Answers (withDelayLine op s k) := by
  unfold Machine.withDelayLine
  split
  · exact answers_raise _ _ _
  · exact h _ ‹_›

theorem Answers.withOscillator {op : Opcode} {k : Oscillator → Result} (h : ∀ o, Answers (k o)) :
    Answers (withOscillator op s k) := by
  unfold Machine.withOscillator
  split
  · exact answers_raise _ _ _
  · exact h _

/-- Under R23 the cursor of a channel in range is there. -/
theorem Answers.withChannel {k : Index → Result} (hr : RingInv c d)
    (h : ∀ cur, ch.toNat < d.dlm.toNat → d.wcur[ch.toNat]? = some cur → Answers (k cur)) :
    Answers (withChannel ch d s k) := by
  refine .ite (fun hch => ?_) fun _ => answers_raise _ _ _
  obtain ⟨cur, hcur, -⟩ := ring_cursor hr hch
  rw [hcur]
  exact h cur hch hcur

/-- Under R23 every command of a block answers a next state. -/
theorem exec_answers (i : Instr) (hdl : ∀ d ∈ s.dl, RingInv s.cfg d) : Answers (exec i s) := by
  cases i with
  | dlNew n m =>
    exact .unlessHalted (.ite (fun _ => answers_raise _ _ _) fun _ => .ite (fun _ => answers_raise _ _ _) fun _ =>
      .ite (fun _ => answers_raise _ _ _) fun _ => answers_complete _ _)
  | dlWrite ch x =>
    refine .unlessHalted (.withDelayLine fun d hd => .withChannel (hdl d hd) fun cur hch hcur => ?_)
    rw [(write_in_store (hdl d hd) hch hcur x).1]
    exact answers_complete _ _
  | dlRead ch k =>
    refine .unlessHalted (.withDelayLine fun d hd => .withChannel (hdl d hd) fun cur hch hcur => ?_)
    rw [(dlRead_eq (hdl d hd) hch hcur k.toNat).1]
    exact answers_complete _ _
  | dlReadi ch x =>
    refine .unlessHalted (.withDelayLine fun d hd => .withChannel (hdl d hd) fun cur hch hcur =>
      .ite (fun _ => answers_raise _ _ _) fun hx => ?_)
    obtain ⟨hf, h0, h1⟩ := invalidDelay_eq_false.mp (Bool.eq_false_iff.mpr hx)
    rw [f2idx_ffloor hf (floorInt_nonneg h0) h1.le]
    simp only [withIndex, (dlRead_eq (hdl d hd) hch hcur _).1]
    exact answers_complete _ _
  | lfoNew f sr =>
    refine .unlessHalted (.ite (fun _ => answers_raise _ _ _) fun _ => .ite ?_ ?_)
    · exact fun _ => answers_raise _ _ _
    · exact fun _ => answers_complete _ _
  | lfoSetf f => exact .unlessHalted (.withOscillator fun _ => answers_complete _ _)
  | lfoNext => exact .unlessHalted (.withOscillator fun _ => answers_complete _ _)

/-- Settles O20: only a command could stop, and `exec_answers` says that none does. -/
theorem stepNeverStops : Obligations.StepNeverStops := by
  rintro s ⟨-, hdl, -⟩
  match hp : s.pending with
  | [] => exact ⟨_, step_idle hp⟩
  | .reset :: rest => exact ⟨_, step_reset hp⟩
  | .take :: rest => exact ⟨_, step_take hp⟩
  | .command w :: rest =>
    rw [step_command hp]
    refine Answers.ite (fun _ => answers_next _) fun _ => ?_
    split
    · exact answers_raise _ _ _
    · exact exec_answers _ hdl

/-! ### The effect of each command that completes -/

/-- The delay line after `DL.WRITE ch, x`: `x` at the cursor of the channel, the cursor advanced (R91). -/
def DelayLine.written (d : DelayLine) (ch : Index) (x : Sample) : DelayLine :=
  setCursor { d with store := memWrite d.store (ch.toNat * d.dln.toNat + cursorOf d ch) x } ch
    (nextCursor d (d.wcur.getD ch.toNat 0#32))

/-- The same by the cursor found in the register file. -/
theorem written_eq {cur : Index} (hcur : d.wcur[ch.toNat]? = some cur) (x : Sample) :
    d.written ch x = setCursor { d with store := memWrite d.store (ch.toNat * d.dln.toNat + cur.toNat) x } ch
      (nextCursor d cur) := by
  simp [DelayLine.written, cursorOf, List.getD, hcur]

theorem index_ne_zero {n : Index} (hn : 1 ≤ n.toNat) : n ≠ 0#32 := by
  rintro rfl
  simp at hn

theorem exec_dlNew {n m : Index} (hh : s.halt = none) (hd : s.dl = none) (hn : 1 ≤ n.toNat) (hm : m.toNat ≤ s.cfg.maxch)
    (hnm : n.toNat * m.toNat ≤ s.cfg.depth) :
    exec (.dlNew n m) s = .next (respond statusOk 0#64 { s with dl := some (freshDelayLine n m) }) :=
  execDlNew_next.mpr (.inr ⟨hh, .inr (.inr (.inr ⟨hd, index_ne_zero hn, hm, hnm, rfl⟩))⟩)

section
variable (hh : s.halt = none) (hd : s.dl = some d) (hr : RingInv c d) (hch : ch.toNat < d.dlm.toNat)
include hh hd hr hch

theorem exec_dlWrite (x : Sample) :
    exec (.dlWrite ch x) s = .next (respond statusOk 0#64 { s with dl := some (d.written ch x) }) := by
  obtain ⟨cur, hcur, -⟩ := ring_cursor hr hch
  rw [written_eq hcur]
  exact execDlWrite_next.mpr
    (.inr ⟨hh, .inr ⟨d, hd, .inr ⟨hch, cur, hcur, _, (write_in_store hr hch hcur x).1, rfl⟩⟩⟩)

theorem exec_dlRead (k : Index) :
    exec (.dlRead ch k) s = .next (respond statusOk (delayedSample d ch k.toNat) s) := by
  obtain ⟨cur, hcur, -⟩ := ring_cursor hr hch
  exact execDlRead_next.mpr
    (.inr ⟨hh, .inr ⟨d, hd, .inr ⟨hch, cur, hcur, _, (dlRead_eq hr hch hcur k.toNat).1, rfl⟩⟩⟩)

theorem exec_dlReadi {x : Sample} (hx : invalidDelay s.cfg.flen x = false) :
    exec (.dlReadi ch x) s = .next (respond statusOk
      (interpolate s.cfg.flen (delayedSample d ch (floorInt s.cfg.flen x).toNat)
        (delayedSample d ch ((floorInt s.cfg.flen x).toNat + 1)) (fsub s.cfg.flen x (ffloor s.cfg.flen x))) s) := by
  obtain ⟨cur, hcur, -⟩ := ring_cursor hr hch
  obtain ⟨hf, h0, h1⟩ := invalidDelay_eq_false.mp hx
  exact execDlReadi_next.mpr (.inr ⟨hh, .inr ⟨d, hd, .inr ⟨hch, cur, hcur, .inr ⟨hx, _,
    f2idx_ffloor hf (floorInt_nonneg h0) h1.le, _, (dlRead_eq hr hch hcur _).1, _, (dlRead_eq hr hch hcur _).1, rfl⟩⟩⟩⟩)

end

@[simp] theorem written_dln (x : Sample) : (d.written ch x).dln = d.dln := rfl

@[simp] theorem written_dlm (x : Sample) : (d.written ch x).dlm = d.dlm := rfl

theorem written_wcur_other {x : Sample} {k : Nat} (hk : k ≠ ch.toNat) : (d.written ch x).wcur[k]? = d.wcur[k]? := by
  simp [DelayLine.written, List.getElem?_set_ne hk.symm]

theorem cursorOf_written (hr : RingInv c d) (hch : ch.toNat < d.dlm.toNat) (x : Sample) :
    cursorOf (d.written ch x) ch = (cursorOf d ch + 1) % d.dln.toNat := by
  obtain ⟨hn, -, -, hlen, -⟩ := hr
  rw [← hlen] at hch
  simp [cursorOf, DelayLine.written, hch, (nextCursor_toNat hn _).1]

theorem cursorOf_written_other {c : Index} (hc : c ≠ ch) (x : Sample) : cursorOf (d.written ch x) c = cursorOf d c := by
  rw [cursorOf, List.getD, written_wcur_other (BitVec.toNat_inj.not.mpr hc)]
  rfl

theorem memRead_written_same (hr : RingInv c d) (x : Sample) :
    memRead (d.written ch x).store (ch.toNat * d.dln.toNat + cursorOf d ch) = x := by
  obtain ⟨-, -, -, -, -, hwf, -⟩ := hr
  exact memRead_memWrite_same hwf

theorem memRead_written_other {x : Sample} {i : Nat} (hi : i ≠ ch.toNat * d.dln.toNat + cursorOf d ch) :
    memRead (d.written ch x).store i = memRead d.store i := memRead_memWrite_other hi

/-- A write of a `T` word keeps R23. -/
theorem RingInv.written (hr : RingInv c d) (hch : ch.toNat < d.dlm.toNat) {x : Sample} (hx : c.flen.fits x) :
    RingInv c (d.written ch x) := by
  obtain ⟨cur, hcur, -⟩ := ring_cursor hr hch
  rw [written_eq hcur]
  exact write_ringInv hr hch hcur hx

/-- Settles O29: the delay line is `freshDelayLine`. -/
theorem completesDlNew : Obligations.CompletesDlNew := by
  intro s n m hh hd hn hm hnm
  refine ⟨_, freshDelayLine n m, exec_dlNew hh hd hn hm hnm, rfl, rfl, rfl, fun _ _ => rfl, fun k hk => ?_, rfl⟩
  simp [hk]

/-- Settles O30: the delay line is `DelayLine.written`. -/
theorem completesDlWrite : Obligations.CompletesDlWrite := by
  intro s d ch x hh hd hr hch
  exact ⟨d.written ch x, exec_dlWrite hh hd hr hch x, memRead_written_same hr x, cursorOf_written hr hch x,
    fun _ => memRead_written_other, fun _ => written_wcur_other, rfl, rfl⟩

/-- Settles O31: `j` is the slot of R93 in its unsigned form (R81). -/
theorem completesDlRead : Obligations.CompletesDlRead := by
  intro s d ch k hh hd hr hch
  obtain ⟨_, -, hval, hcur⟩ := ring_cursor hr hch
  rw [hval] at hcur
  obtain ⟨hslot, hlt⟩ := delayedSlot_eq (delay := k.toNat) hcur
  exact ⟨_, hlt, hslot.symm, exec_dlRead hh hd hr hch k⟩

/-- Settles O32: a finite `x` with `0 <= x < 2^32 - 1` is no invalid delay. -/
theorem completesDlReadi : Obligations.CompletesDlReadi := by
  intro s d ch x hh hd hr hch hf h0 h1
  have hx0 := valQ_nonneg.mp h0
  have hx : invalidDelay s.cfg.flen x = false := by
    refine invalidDelay_eq_false.mpr ⟨hf, hx0, ?_⟩
    rw [← floor_valQ, Int.floor_lt]
    exact_mod_cast h1
  refine ⟨(floorInt s.cfg.flen x).toNat, ?_, exec_dlReadi hh hd hr hch hx⟩
  rw [Int.toNat_of_nonneg (floorInt_nonneg hx0), floor_valQ]

end Sys2Proof.Machine

/-! PROOFS. A delay line as the history of its channels (41_delay_line R95 to R97, 20_memory R40): a write puts its sample before
the history of its channel and leaves every other channel's. -/

namespace Sys2Proof.Machine

variable {s t : State} {c : Config} {d : DelayLine} {ch : Index} {x : Sample} {hist : List Sample}

/-! ### The slot of a delay (R81, R93) -/

/-- The slot, in a ring of `n` words with next write position `cur`, of the sample written `delay` writes ago. -/
def ringSlot (n cur delay : Nat) : Nat :=
  let u := cur + n - 1 - delay % n
  if n ≤ u then u - n else u

theorem delayedIndex_eq (k : Nat) :
    delayedIndex d ch k = ch.toNat * d.dln.toNat + ringSlot d.dln.toNat (cursorOf d ch) k := rfl

theorem ringSlot_mod (n cur k : Nat) : ringSlot n cur (k % n) = ringSlot n cur k := by
  rw [ringSlot, Nat.mod_mod, ringSlot]

theorem ringSlot_lt {n cur : Nat} (h : cur < n) (k : Nat) : ringSlot n cur k < n := (delayedSlot_eq h).2

theorem ringSlot_of_lt {n cur j : Nat} (hj : j < n) :
    ringSlot n cur j = if j < cur then cur - 1 - j else cur + n - 1 - j := by
  unfold ringSlot
  simp only [Nat.mod_eq_of_lt hj]
  split_ifs <;> omega

/-- The next write position: one on, or back to the start of the ring. -/
theorem succ_mod_cases {n cur : Nat} (h : cur < n) :
    (cur + 1 < n ∧ (cur + 1) % n = cur + 1) ∨ (cur + 1 = n ∧ (cur + 1) % n = 0) := by
  rcases Nat.lt_or_ge (cur + 1) n with hlt | hge
  · exact .inl ⟨hlt, Nat.mod_eq_of_lt hlt⟩
  · obtain rfl : n = cur + 1 := by omega
    exact .inr ⟨rfl, Nat.mod_self _⟩

/-- The cursor advances over the newest sample. -/
theorem ringSlot_next_zero {n cur : Nat} (h : cur < n) : ringSlot n ((cur + 1) % n) 0 = cur := by
  rw [ringSlot_of_lt (by omega)]
  rcases succ_mod_cases h with ⟨_, hnext⟩ | ⟨_, hnext⟩ <;> rw [hnext] <;> split_ifs <;> omega

/-- As the cursor advances, each retained sample keeps its slot, which the write missed, and is one write older. -/
theorem ringSlot_next_succ {n cur j : Nat} (h : cur < n) (hj : j + 1 < n) :
    ringSlot n ((cur + 1) % n) (j + 1) = ringSlot n cur j ∧ ringSlot n cur j ≠ cur := by
  rw [ringSlot_of_lt hj, ringSlot_of_lt (Nat.lt_of_succ_lt hj)]
  rcases succ_mod_cases h with ⟨_, hnext⟩ | ⟨_, hnext⟩ <;> rw [hnext] <;> split_ifs <;> omega

/-! ### Delayed samples after a write -/

theorem delayedSample_mod (k : Nat) : delayedSample d ch (k % d.dln.toNat) = delayedSample d ch k := by
  rw [delayedSample, delayedIndex_eq, ringSlot_mod, ← delayedIndex_eq, delayedSample]

theorem cursorOf_lt (hr : RingInv c d) (hch : ch.toNat < d.dlm.toNat) : cursorOf d ch < d.dln.toNat := by
  obtain ⟨_, -, hval, hlt⟩ := ring_cursor hr hch
  exact hval ▸ hlt

section
variable (hr : RingInv c d) (hch : ch.toNat < d.dlm.toNat)
include hr hch

theorem delayedSample_written_zero : delayedSample (d.written ch x) ch 0 = x := by
  rw [delayedSample, delayedIndex_eq, cursorOf_written hr hch, written_dln, ringSlot_next_zero (cursorOf_lt hr hch)]
  exact memRead_written_same hr x

theorem delayedSample_written_succ {j : Nat} (hj : j + 1 < d.dln.toNat) :
    delayedSample (d.written ch x) ch (j + 1) = delayedSample d ch j := by
  obtain ⟨hslot, hne⟩ := ringSlot_next_succ (cursorOf_lt hr hch) hj
  rw [delayedSample, delayedIndex_eq, cursorOf_written hr hch, written_dln, hslot]
  exact memRead_written_other (by omega)

theorem delayedSample_written_other {e : Index} (he : e ≠ ch) (hlt : e.toNat < d.dlm.toNat) (j : Nat) :
    delayedSample (d.written ch x) e j = delayedSample d e j := by
  rw [delayedSample, delayedIndex_eq, cursorOf_written_other he, written_dln]
  exact memRead_written_other (slots_disjoint (ringSlot_lt (cursorOf_lt hr hlt) j) (cursorOf_lt hr hch)
    (BitVec.toNat_inj.not.mpr he))

end

/-- Settles O36: `DL.WRITE` leaves `DelayLine.written`. -/
theorem writeShiftsOwnChannelOnly : Obligations.WriteShiftsOwnChannelOnly := by
  intro s t d d' ch x hh hd hr hch h hd'
  rw [exec_dlWrite hh hd hr hch, Host.Outcome.next.injEq] at h
  subst h
  cases hd'
  exact ⟨delayedSample_written_zero hr hch, fun j hj => delayedSample_written_succ hr hch hj,
    fun e j he hlt => delayedSample_written_other hr hch he hlt j⟩

/-! ### The history of a channel -/

/-- Channel `ch` has had the samples `hist` written to it since `DL.NEW`, newest first: the cursor counts them modulo the capacity
(R95), and the ring holds the newest of them, with `+0` where there were not that many (R96, R97). -/
def HoldsHistory (d : DelayLine) (ch : Index) (hist : List Sample) : Prop :=
  cursorOf d ch = hist.length % d.dln.toNat ∧ ∀ j < d.dln.toNat, delayedSample d ch j = hist.getD j 0#64

theorem holdsHistory_fresh (n m ch : Index) : HoldsHistory (freshDelayLine n m) ch [] := by
  refine ⟨?_, fun _ _ => rfl⟩
  simp only [cursorOf, freshDelayLine_wcur, List.length_nil, Nat.zero_mod, List.getD, List.getElem?_replicate]
  split <;> rfl

theorem HoldsHistory.written (h : HoldsHistory d ch hist) (hr : RingInv c d) (hch : ch.toNat < d.dlm.toNat) :
    HoldsHistory (d.written ch x) ch (x :: hist) := by
  obtain ⟨hcur, hsample⟩ := h
  refine ⟨by rw [cursorOf_written hr hch, hcur, Nat.mod_add_mod]; rfl, fun j hj => ?_⟩
  rw [written_dln] at hj
  cases j with
  | zero => exact delayedSample_written_zero hr hch
  | succ j => rw [delayedSample_written_succ hr hch hj, hsample j (by omega)]; rfl

theorem HoldsHistory.written_other (h : HoldsHistory d ch hist) (hr : RingInv c d) (hch : ch.toNat < d.dlm.toNat) {e : Index}
    (he : e.toNat < d.dlm.toNat) (hne : ch ≠ e) : HoldsHistory (d.written e x) ch hist := by
  obtain ⟨hcur, hsample⟩ := h
  exact ⟨(cursorOf_written_other hne x).trans hcur,
    fun j hj => (delayedSample_written_other hr he hne hch j).trans (hsample j hj)⟩

/-- The samples that a sequence of writes writes to channel `ch`, oldest first. -/
def samplesOf (ch : Index) (writes : List (Index × Sample)) : List Sample :=
  (writes.filter fun w => w.1 == ch).map Prod.snd

/-- One write puts its sample before the history of its channel only. -/
theorem HoldsHistory.afterWrite (h : HoldsHistory d ch hist) (hr : RingInv c d) (hch : ch.toNat < d.dlm.toNat)
    {w : Index × Sample} (hw : w.1.toNat < d.dlm.toNat) :
    HoldsHistory (d.written w.1 w.2) ch ((samplesOf ch [w]).reverse ++ hist) := by
  obtain ⟨e, x⟩ := w
  by_cases he : e = ch
  · subst he
    simpa [samplesOf] using h.written hr hch
  · simpa [samplesOf, he] using h.written_other hr hch hw (Ne.symm he)

theorem samplesOf_cons (w : Index × Sample) (writes : List (Index × Sample)) :
    samplesOf ch (w :: writes) = samplesOf ch [w] ++ samplesOf ch writes := by
  simp only [samplesOf, ← List.map_append, ← List.filter_append, List.singleton_append]

theorem execAll_cons {i : Instr} (is : List Instr) (h : exec i s = .next t) : execAll (i :: is) s = execAll is t := by
  simp only [execAll, h]

/-- The state the commands after a `DL.WRITE` start from. -/
theorem execAll_dlWrite (hh : s.halt = none) (hd : s.dl = some d) (hr : RingInv c d) (hch : ch.toNat < d.dlm.toNat)
    (x : Sample) (is : List Instr) :
    ∃ t, execAll (.dlWrite ch x :: is) s = execAll is t ∧ t.cfg = s.cfg ∧ t.halt = none ∧ t.dl = some (d.written ch x)
      ∧ t.waiting = s.waiting ++ [responseWord statusOk 0#64] :=
  ⟨_, execAll_cons is (exec_dlWrite hh hd hr hch x), rfl, hh, rfl, rfl⟩

/-- The parameters of a block whose ring may hold any 64-bit words: `DL.WRITE` stores its sample unchanged, `T` word or not. -/
def anySamples (c : Config) : Config := { c with flen := .f64 }

/-- A sequence of writes to channels in range completes, and puts the samples of each channel before its history. -/
theorem execAll_writes (writes : List (Index × Sample)) (hh : s.halt = none) (hd : s.dl = some d)
    (hr : RingInv (anySamples c) d) (hch : ch.toNat < d.dlm.toNat) (hw : ∀ w ∈ writes, w.1.toNat < d.dlm.toNat)
    (hhist : HoldsHistory d ch hist) :
    ∃ t d', execAll (writes.map fun w => .dlWrite w.1 w.2) s = .next t ∧ t.halt = none ∧ t.dl = some d'
      ∧ RingInv (anySamples c) d' ∧ d'.dln = d.dln ∧ d'.dlm = d.dlm
      ∧ HoldsHistory d' ch ((samplesOf ch writes).reverse ++ hist) := by
  induction writes generalizing s d hist with
  | nil => exact ⟨s, d, rfl, hh, hd, hr, rfl, rfl, hhist⟩
  | cons w writes ih =>
    obtain ⟨hw0, hrest⟩ := List.forall_mem_cons.mp hw
    have hnext := hr.written hw0 (x := w.2) (.inl rfl)
    obtain ⟨t, hrun, -, hth, htd, -⟩ :=
      execAll_dlWrite hh hd hr hw0 w.2 (writes.map fun w => .dlWrite w.1 w.2)
    rw [List.map_cons, hrun, samplesOf_cons, List.reverse_append, List.append_assoc]
    exact ih (d := d.written w.1 w.2) hth htd hnext hch hrest (hhist.afterWrite hr hch hw0)

/-- Counted from the newest, the sample `j` writes ago. -/
theorem reverse_getD (vs : List Sample) (j : Nat) :
    vs.reverse.getD j 0#64 = if j < vs.length then vs.getD (vs.length - 1 - j) 0#64 else 0#64 := by
  split
  · rename_i hj; exact congrFun (List.getD_reverse j hj) _
  · rename_i hj; exact List.getD_eq_default _ _ (by simpa using hj)

/-- Settles O37: `DL.NEW` makes rings with no history, and each write adds to one. -/
theorem readReturnsHistory : Obligations.ReadReturnsHistory := by
  intro s n m ch k writes hh hd hn hm hnm hch hw vs back
  have hring : RingInv (anySamples s.cfg) (freshDelayLine n m) := fresh_ringInv (index_ne_zero hn) hm hnm
  obtain ⟨t, d, hrun, hth, htd, hr, hdln, hdlm, hcur, hsample⟩ :=
    execAll_writes writes (s := respond statusOk 0#64 { s with dl := some (freshDelayLine n m) }) hh rfl hring hch hw
      (holdsHistory_fresh n m ch)
  rw [List.append_nil] at hcur hsample
  rw [freshDelayLine_dln] at hdln
  rw [freshDelayLine_dlm] at hdlm
  refine ⟨t, d, (execAll_cons _ (exec_dlNew hh hd hn hm hnm)).trans hrun, htd, ?_, ?_⟩
  · rw [hcur, hdln, List.length_reverse]
    rfl
  · have hback : back < d.dln.toNat := by rw [hdln]; exact Nat.mod_lt _ hn
    rw [exec_dlRead hth htd hr (hdlm ▸ hch), ← delayedSample_mod, hdln, hsample back hback, reverse_getD]
    rfl

end Sys2Proof.Machine

/-! PROOFS. Interpolation at a delay with fraction `+0` (41_delay_line R99) and at the midpoint of two samples (R100). A finite
`T` word is the word of its sign and magnitude, so rounding an exact `T` value gives the word back. -/

namespace Sys2Proof.Machine

variable {fl : Flen} {a b x y1 y2 : Sample}

/-! ### A word from its sign and its magnitude (R66) -/

/-- The bits below the sign are the exponent and fraction fields. -/
theorem body_eq_fields (x : Sample) :
    x.toNat % 2 ^ (flenBits fl - 1) = expField fl x * 2 ^ fracBits fl + fracField fl x := by
  rw [expField_eq_mod, fracField_eq_mod, Nat.mul_comm, Nat.div_add_mod]

/-- The magnitude of any word is encoded by its exponent and fraction fields. -/
theorem encodeMag_magUnits (x : Sample) :
    encodeMag fl (magUnits fl x) = expField fl x * 2 ^ fracBits fl + fracField fl x := by
  have hf := fracField_lt (fl := fl) x
  have ht := Nat.two_pow_pos (fracBits fl)
  unfold magUnits
  split
  · rename_i he
    have hlog : Nat.log2 (fracField fl x) - fracBits fl = 0 := by
      rcases Nat.eq_zero_or_pos (fracField fl x) with h0 | hpos
      · simp [h0]
      · have := (Nat.log2_lt hpos.ne').mpr hf
        omega
    simp [encodeMag, hlog, he]
  · rename_i he
    obtain ⟨e, he'⟩ : ∃ e, expField fl x = e + 1 := ⟨_, (Nat.succ_pred he).symm⟩
    have hlog : Nat.log2 ((2 ^ fracBits fl + fracField fl x) * 2 ^ e) = fracBits fl + e := by
      rw [Nat.log2_eq_iff (by positivity)]
      constructor
      · rw [pow_add]; exact Nat.mul_le_mul_right _ (Nat.le_add_right _ _)
      · rw [show fracBits fl + e + 1 = (fracBits fl + 1) + e by omega, pow_add _ (fracBits fl + 1)]
        exact Nat.mul_lt_mul_of_pos_right (by rw [pow_succ]; omega) (Nat.two_pow_pos e)
    simp only [he', Nat.add_sub_cancel, encodeMag, hlog, Nat.add_sub_cancel_left, Nat.mul_div_cancel _ (Nat.two_pow_pos e)]
    ring

theorem toNat_lt_of_fits (h : fl.fits x) : x.toNat < 2 * 2 ^ (flenBits fl - 1) := by
  rcases h with rfl | h
  · exact x.isLt
  · refine h.trans_le ?_
    cases fl <;> decide

/-- A `T` word is the word of its sign and its magnitude. -/
theorem packWord_magUnits (h : fl.fits x) : packWord fl (signBit fl x) (encodeMag fl (magUnits fl x)) = x := by
  have hlt := toNat_lt_of_fits h
  have hp := Nat.two_pow_pos (flenBits fl - 1)
  apply BitVec.eq_of_toNat_eq
  rw [encodeMag_magUnits, ← body_eq_fields, packWord_toNat (Nat.mod_lt _ hp), signBit, BitVec.getLsbD,
    Nat.testBit_eq_decide_div_mod_eq]
  have hdm := Nat.div_add_mod x.toNat (2 ^ (flenBits fl - 1))
  rcases Nat.lt_or_ge x.toNat (2 ^ (flenBits fl - 1)) with hlo | hhi
  · simp [Nat.div_eq_of_lt hlo, Nat.mod_eq_of_lt hlo]
  · have hq : x.toNat / 2 ^ (flenBits fl - 1) = 1 := Nat.div_eq_of_lt_le (by omega) (by omega)
    rw [hq] at hdm ⊢
    simpa using hdm

/-- A zero of the format is the zero of its sign. -/
theorem eq_zeroOf_signBit (h : fl.fits x) (hz : fiszero fl x = true) : x = zeroOf fl (signBit fl x) := by
  conv_lhs => rw [← packWord_magUnits h, magUnits_of_fiszero hz]
  simp [zeroOf, encodeMag]

/-- Rounding the magnitude of a finite `T` word gives the word. -/
theorem roundT_magUnits (h : fl.fits x) (hf : isFinite fl x = true) :
    roundT fl (signBit fl x) (magUnits fl x) 1 = x := by
  obtain ⟨q, hq, hm⟩ := magUnits_form (fl := fl) x
  have hexact : roundedUnits fl (magUnits fl x) 1 = magUnits fl x := by rw [hm]; exact roundedUnits_of_short hq
  rw [roundT_of_lt_infUnits (by rw [hexact]; exact magUnits_lt hf), hexact, packWord_magUnits h]

/-! ### Sums with zeros (R70) -/

theorem fiszero_zeroT : fiszero fl zeroT = true := by rw [zeroT_eq, fiszero_zeroOf]

theorem signBit_zeroOf (sign : Bool) : signBit fl (zeroOf fl sign) = sign := signBit_packWord (Nat.two_pow_pos _)

theorem zeroOf_inj {s s' : Bool} : zeroOf fl s = zeroOf fl s' ↔ s = s' :=
  ⟨fun h => by simpa only [signBit_zeroOf] using congrArg (signBit fl) h, congrArg _⟩

theorem decide_valUnits_neg (h : fiszero fl x = false) : decide (valUnits fl x < 0) = signBit fl x := by
  have := magUnits_pos h
  unfold valUnits
  cases signBit fl x <;> simp; omega

/-- A sum of finite words that is exactly 0 is `+0`, unless it is a sum of two zeros of which both are `-0`. -/
theorem fadd_eq_zeroT (ha : isFinite fl a = true) (hb : isFinite fl b = true) (hsum : valUnits fl a + valUnits fl b = 0)
    (hsign : fiszero fl a = true → (signBit fl a && signBit fl b) = false) : fadd fl a b = zeroT := by
  unfold fadd
  simp only [fisnan_of_isFinite ha, fisnan_of_isFinite hb, fisinf_of_isFinite ha, fisinf_of_isFinite hb,
    Bool.or_self, Bool.false_and, Bool.false_eq_true, if_false, hsum, if_true, zeroT_eq (fl := fl)]
  split
  · rename_i hz
    rw [hsign (Bool.and_eq_true_iff.mp hz).1]
  · rfl

/-- A finite `T` word that is no zero, plus a zero, is the word; the sum of two zeros is `-0` only if both are. -/
theorem fadd_zeroOf (h : fl.fits a) (hf : isFinite fl a = true) (sign : Bool) :
    fadd fl a (zeroOf fl sign) = if fiszero fl a then zeroOf fl (signBit fl a && sign) else a := by
  have hzf := isFinite_zeroOf (fl := fl) sign
  unfold fadd
  simp only [fisnan_of_isFinite hf, fisnan_of_isFinite hzf, fisinf_of_isFinite hf, fisinf_of_isFinite hzf, Bool.or_self,
    Bool.false_and, Bool.false_eq_true, if_false, fiszero_zeroOf, Bool.and_true, signBit_zeroOf, valUnits_zeroOf, Int.add_zero]
  cases hz : fiszero fl a
  · have hne : valUnits fl a ≠ 0 := by
      have := magUnits_pos hz
      rw [← natAbs_valUnits] at this
      omega
    simp only [Bool.false_eq_true, if_false, if_neg hne, natAbs_valUnits, decide_valUnits_neg hz]
    exact roundT_magUnits h hf
  · rfl

/-! ### Results that are not finite (R68, R70, R72) -/

theorem isFinite_cnanT : isFinite fl (cnanT fl) = false := by cases fl <;> decide

theorem fadd_cnanT (a : Sample) : fadd fl a (cnanT fl) = cnanT fl := by
  have : fisnan fl (cnanT fl) = true := by cases fl <;> decide
  simp [fadd, this]

/-- Only finite words have a finite sum. -/
theorem isFinite_of_fadd (h : isFinite fl (fadd fl a b) = true) : isFinite fl a = true ∧ isFinite fl b = true := by
  have hinf : ∀ y, fisinf fl y = true → isFinite fl y = false := fun y hy => isFinite_eq_false.mpr (.inr hy)
  unfold fadd at h
  simp only at h
  split at h
  · simp [isFinite_cnanT] at h
  split at h
  · simp [isFinite_cnanT] at h
  split at h
  · rename_i ha; simp [hinf a ha] at h
  split at h
  · rename_i hb; simp [hinf b hb] at h
  rename_i hnan _ ha hb
  simp only [Bool.or_eq_true, not_or] at hnan
  constructor
  · exact Bool.eq_true_of_not_eq_false fun hf => (isFinite_eq_false.mp hf).elim hnan.1 ha
  · exact Bool.eq_true_of_not_eq_false fun hf => (isFinite_eq_false.mp hf).elim hnan.2 hb

theorem isFinite_of_fsub (h : isFinite fl (fsub fl a b) = true) : isFinite fl a = true ∧ isFinite fl b = true := by
  obtain ⟨ha, hb⟩ := isFinite_of_fadd h
  exact ⟨ha, isFinite_fneg b ▸ hb⟩

/-- `+0` times a finite word is the zero of its sign. -/
theorem fmul_zeroT (h : isFinite fl x = true) : fmul fl zeroT x = zeroOf fl (signBit fl x) := by
  have hz : signBit fl zeroT = false := by cases fl <;> decide
  simp [fmul, fisnan_of_isFinite, fisinf_of_isFinite, isFinite_zeroT, h, fiszero_zeroT, hz]

/-- `+0` times a word that is not finite is a NaN. -/
theorem fmul_zeroT_of_not_isFinite (h : isFinite fl x = false) : fmul fl zeroT x = cnanT fl := by
  rcases isFinite_eq_false.mp h with hx | hx <;>
    simp [fmul, hx, fiszero_zeroT, fisnan_of_isFinite isFinite_zeroT]

/-! ### The fraction `+0` (R99) -/

theorem fsub_ffloor_of_integral (hf : isFinite fl x = true) (hx : valUnits fl x % (oneUnits fl : Int) = 0) :
    fsub fl x (ffloor fl x) = zeroT := by
  obtain ⟨hff, -⟩ := ffloor_spec hf
  obtain ⟨m, hm, -, hmod⟩ := valUnits_sub_floor hf
  refine fadd_eq_zeroT hf (by rw [isFinite_fneg, hff]) (by rw [valUnits_fneg]; omega) fun hz => ?_
  have hself : ffloor fl x = x := by simp [ffloor, fisnan_of_isFinite hf, hz]
  rw [hself, signBit_fneg, Bool.and_not_self]

/-- With the fraction `+0` and finite samples and difference, the product is the zero of the sign of the difference. -/
theorem interpolate_zeroT (h : fl.fits y1) (hf : isFinite fl y1 = true) (hd : isFinite fl (fsub fl y2 y1) = true) :
    interpolate fl y1 y2 zeroT = if y1 = zeroOf fl true ∧ fmul fl zeroT (fsub fl y2 y1) = zeroT then zeroT else y1 := by
  rw [interpolate, fmul_zeroT hd, fadd_zeroOf h hf]
  generalize signBit fl (fsub fl y2 y1) = sign
  cases hz : fiszero fl y1
  · have hne : y1 ≠ zeroOf fl true := by rintro rfl; simp [fiszero_zeroOf] at hz
    simp [hne]
  · rw [eq_zeroOf_signBit h hz, zeroT_eq (fl := fl)]
    simp only [signBit_zeroOf, zeroOf_inj, if_true]
    cases signBit fl y1 <;> cases sign <;> simp

/-- Settles O38: `interpolate_zeroT`; a sample that is not finite leaves the difference not finite, and so the product. -/
theorem integralDelayReadsSample : Obligations.IntegralDelayReadsSample := by
  refine ⟨fun fl x => fsub_ffloor_of_integral, fun fl y1 y2 h1 _ hf _ hd => ?_, fun fl y1 y2 h => ?_⟩
  · rw [interpolate_zeroT h1 hf hd]
    refine ⟨?_, fun h => if_pos h, fun h => if_neg h⟩
    split
    · rename_i h
      rw [h.1, zeroT_eq (fl := fl), valQ, valQ, valUnits_zeroOf, valUnits_zeroOf]
    · rfl
  · have hd : isFinite fl (fsub fl y2 y1) = false := by
      refine Bool.eq_false_iff.mpr fun hd => ?_
      obtain ⟨hf2, hf1⟩ := isFinite_of_fsub hd
      simp [hf1, hf2, hd] at h
    rw [interpolate, fmul_zeroT_of_not_isFinite hd, fadd_cnanT]

/-! ### The midpoint (R100) -/

/-- The word of 2. -/
def twoT (fl : Flen) : Sample := wordOf fl 0x40000000#64 0x4000000000000000#64

/-- The word of 0.5. -/
def halfT (fl : Flen) : Sample := wordOf fl 0x3F000000#64 0x3FE0000000000000#64

/-- The word of 1.5. -/
def threeHalvesT (fl : Flen) : Sample := wordOf fl 0x3FC00000#64 0x3FF8000000000000#64

theorem oneT_fits : fl.fits (oneT fl) := by cases fl <;> decide

theorem twoT_fits : fl.fits (twoT fl) := by cases fl <;> decide

theorem invalidDelay_halfT : invalidDelay fl (halfT fl) = false := by cases fl <;> decide +kernel

theorem floorInt_halfT : floorInt fl (halfT fl) = 0 := by cases fl <;> decide +kernel

/-- Halfway back from 2 to 1 is 1.5, and from 2 to 2 it is 2. -/
theorem interpolate_halfT : interpolate fl (twoT fl) (oneT fl) (fsub fl (halfT fl) (ffloor fl (halfT fl))) = threeHalvesT fl
    ∧ interpolate fl (twoT fl) (twoT fl) (fsub fl (halfT fl) (ffloor fl (halfT fl))) = twoT fl := by
  cases fl <;> decide +kernel

/-- The two newest samples of a channel after two writes; a ring of one word holds only the newest. -/
theorem delayedSample_written_twice {c : Config} {d : DelayLine} {ch : Index} (hr : RingInv c d)
    (hch : ch.toNat < d.dlm.toNat) (ha : c.flen.fits a) :
    delayedSample ((d.written ch a).written ch b) ch 0 = b ∧
    delayedSample ((d.written ch a).written ch b) ch 1 = if d.dln = 1#32 then b else a := by
  have hra := hr.written hch ha
  have hzero : delayedSample ((d.written ch a).written ch b) ch 0 = b := delayedSample_written_zero hra hch
  refine ⟨hzero, ?_⟩
  split
  · rename_i h1
    rw [← delayedSample_mod, written_dln, written_dln, h1]
    exact hzero
  · rename_i h1
    have hn : 0 + 1 < d.dln.toNat := by
      obtain ⟨hpos, -⟩ := hr
      have hne : d.dln.toNat ≠ 1 := fun h => h1 (BitVec.eq_of_toNat_eq h)
      omega
    exact (delayedSample_written_succ hra hch hn).trans (delayedSample_written_zero hr hch)

/-- Two writes and an interpolated read complete one after the other. -/
theorem execAll_write_write_readi {s : State} {d : DelayLine} {ch : Index} (hh : s.halt = none) (hd : s.dl = some d)
    (hr : RingInv s.cfg d) (hch : ch.toNat < d.dlm.toNat) (ha : s.cfg.flen.fits a) (hb : s.cfg.flen.fits b)
    (hx : invalidDelay s.cfg.flen x = false) :
    ∃ t, execAll [.dlWrite ch a, .dlWrite ch b, .dlReadi ch x] s = .next t
      ∧ t.waiting = s.waiting ++ [responseWord statusOk 0#64, responseWord statusOk 0#64, responseWord statusOk
        (interpolate s.cfg.flen
          (delayedSample ((d.written ch a).written ch b) ch (floorInt s.cfg.flen x).toNat)
          (delayedSample ((d.written ch a).written ch b) ch ((floorInt s.cfg.flen x).toNat + 1))
          (fsub s.cfg.flen x (ffloor s.cfg.flen x)))] := by
  obtain ⟨s1, hrun1, hcfg1, hh1, hd1, hw1⟩ := execAll_dlWrite hh hd hr hch a [.dlWrite ch b, .dlReadi ch x]
  have hr1 := hr.written hch ha
  obtain ⟨s2, hrun2, hcfg2, hh2, hd2, hw2⟩ := execAll_dlWrite hh1 hd1 hr1 hch b [.dlReadi ch x]
  have hr2 := hr1.written hch hb
  rw [hcfg1] at hcfg2
  rw [← hcfg2] at hx
  refine ⟨_, (hrun1.trans hrun2).trans (execAll_cons [] (exec_dlReadi hh2 hd2 hr2 hch hx)), ?_⟩
  rw [respond_waiting, hw2, hw1, hcfg2, List.append_assoc, List.append_assoc]
  rfl

/-- Settles O39: the read finds the samples of `delayedSample_written_twice`. -/
theorem midpointOfOneAndTwo : Obligations.MidpointOfOneAndTwo := by
  intro s d ch hh hd hr hch
  show ∃ t, execAll [.dlWrite ch (oneT s.cfg.flen), .dlWrite ch (twoT s.cfg.flen), .dlReadi ch (halfT s.cfg.flen)] s = .next t
    ∧ t.waiting = s.waiting ++ [responseWord statusOk 0#64, responseWord statusOk 0#64,
        responseWord statusOk (if d.dln = 1#32 then twoT s.cfg.flen else threeHalvesT s.cfg.flen)]
  obtain ⟨t, hrun, hw⟩ := execAll_write_write_readi hh hd hr hch oneT_fits twoT_fits invalidDelay_halfT
  obtain ⟨hnew, hold⟩ := delayedSample_written_twice (b := twoT s.cfg.flen) hr hch oneT_fits
  refine ⟨t, hrun, ?_⟩
  rw [hw, floorInt_halfT, Int.toNat_zero, Nat.zero_add, hnew, hold]
  split
  · rw [interpolate_halfT.2]
  · rw [interpolate_halfT.1]

end Sys2Proof.Machine

/-! PROOFS. The oscillator commands (42_lfo R110 to R119): the effect of each that completes, the angle at the landmark phases,
and the phases that `LFO.NEXT` never leaves: a NaN, and `+0` under a degenerate increment. -/

namespace Sys2Proof.Machine

variable {fl : Flen} {a b x : Sample} {c : Config} {s : State} {o : Oscillator}

/-! ### The effect of each command that completes (R110 to R112) -/

theorem exec_lfoNew {f sr : Sample} (hh : s.halt = none) (hl : s.lfo = none) (hsr : fgt s.cfg.flen sr zeroT = true) :
    exec (.lfoNew f sr) s = .next (respond statusOk 0#64
      { s with lfo := some { freq := f, srate := sr, phase := zeroT, inc := fdiv s.cfg.flen f sr } }) :=
  execLfoNew_next.mpr (.inr ⟨hh, .inr (.inr ⟨hl, hsr, rfl⟩)⟩)

section
variable (hh : s.halt = none) (hl : s.lfo = some o)
include hh hl

theorem exec_lfoSetf (f : Sample) :
    exec (.lfoSetf f) s = .next (respond statusOk 0#64
      { s with lfo := some { o with freq := f, inc := fdiv s.cfg.flen f o.srate } }) :=
  execLfoSetf_next.mpr (.inr ⟨hh, .inr ⟨o, hl, rfl⟩⟩)

theorem exec_lfoNext :
    exec .lfoNext s = .next (respond statusOk (fsin s.cfg.sine s.cfg.flen (phaseAngle s.cfg.flen (nextPhase s.cfg o)))
      { s with lfo := some { o with phase := nextPhase s.cfg o } }) :=
  execLfoNext_next.mpr (.inr ⟨hh, .inr ⟨o, hl, rfl⟩⟩)

/-- An advance that ends at the phase it began at leaves the oscillator as it is. -/
theorem exec_lfoNext_of_static (hp : nextPhase s.cfg o = o.phase) :
    exec .lfoNext s =
      .next (respond statusOk (fsin s.cfg.sine s.cfg.flen (phaseAngle s.cfg.flen o.phase)) s) := by
  have ho : some { o with phase := o.phase } = s.lfo := hl.symm
  rw [exec_lfoNext hh hl, hp, ho]

end

theorem nextPhase_reset (hm : c.phaseWrap = .reset) : nextPhase c o =
    if fgt c.flen (fadd c.flen o.phase o.inc) (oneT c.flen) = true then zeroT else fadd c.flen o.phase o.inc := by
  rw [nextPhase, hm, wrapPhase]

theorem nextPhase_frac (hm : c.phaseWrap = .frac) : nextPhase c o =
    fsub c.flen (fadd c.flen o.phase o.inc) (ffloor c.flen (fadd c.flen o.phase o.inc)) := by
  rw [nextPhase, hm, wrapPhase]

/-- Settles O40: the oscillator of `exec_lfoNew` is there, so `LFV` is 1. -/
theorem completesLfoNew : Obligations.CompletesLfoNew :=
  fun _ _ _ hh hl hsr => ⟨_, exec_lfoNew hh hl hsr, rfl, rfl⟩

/-- Settles O41: the effect of `exec_lfoSetf`, register by register. -/
theorem completesLfoSetf : Obligations.CompletesLfoSetf := fun _ _ f hh hl => exec_lfoSetf hh hl f

/-- Settles O42: the phase after the advance, by the wrap mode of the block. -/
theorem completesLfoNext : Obligations.CompletesLfoNext := by
  intro s o hh hl fl p p'
  have hp : p' = nextPhase s.cfg o := by
    cases hm : s.cfg.phaseWrap with
    | reset => rw [nextPhase_reset hm]; simp only [p', hm]; rfl
    | frac => rw [nextPhase_frac hm]; simp only [p', hm]; rfl
  rw [hp]
  exact exec_lfoNext hh hl

/-! ### The angle (R115) -/

/-- At `+0` the product is `+0`, and the difference is `-PI_T`. -/
theorem phaseAngle_zeroT : phaseAngle fl zeroT = fneg fl (piT fl) := by cases fl <;> decide +kernel

/-- Settles O50: at 0.25, 0.5 and 1 the product is half of `PI_T`, `PI_T` and `TWO_PI_T`. -/
theorem angleLandmarks : Obligations.AngleLandmarks := by
  refine fun fl => ⟨phaseAngle_zeroT, ?quarter, ?half, ?one⟩
  all_goals cases fl <;> decide +kernel

/-! ### The output (R116) -/

/-- Settles O46: S2 and S3 of the block's sine, at the angle of the new phase. -/
theorem outputBounded : Obligations.OutputBounded := by
  intro s t o hh hl h fl angle
  obtain ⟨hfinite, hother, -⟩ := sineProperties s.cfg.sine fl
  rw [exec_lfoNext hh hl] at h
  cases h
  exact ⟨fsin s.cfg.sine fl angle, rfl, hfinite angle, hother angle⟩

/-! ### NaN phases (R68, R119) -/

theorem fisnan_cnanT : fisnan fl (cnanT fl) = true := by cases fl <;> decide

theorem fadd_of_fisnan (h : fisnan fl a = true ∨ fisnan fl b = true) : fadd fl a b = cnanT fl := by
  rcases h with h | h <;> simp [fadd, h]

theorem fmul_of_fisnan (h : fisnan fl a = true ∨ fisnan fl b = true) : fmul fl a b = cnanT fl := by
  rcases h with h | h <;> simp [fmul, h]

theorem fgt_of_fisnan (h : fisnan fl a = true) : fgt fl a b = false := by simp [fgt, h]

/-- A NaN is not greater than 1, and less its floor it is a NaN. -/
theorem wrapPhase_cnanT (mode : PhaseWrap) : wrapPhase mode fl (cnanT fl) = cnanT fl := by
  cases mode with
  | reset => rw [wrapPhase, fgt_of_fisnan fisnan_cnanT]; rfl
  | frac => exact fadd_of_fisnan (.inl fisnan_cnanT)

theorem phaseAngle_cnanT : phaseAngle fl (cnanT fl) = cnanT fl := by
  rw [phaseAngle, fmul_of_fisnan (.inl fisnan_cnanT)]
  exact fadd_of_fisnan (.inl fisnan_cnanT)

/-- Settles O47: the sum is `CNAN_T`, and so are the wrapped phase, the angle and the sine of it. -/
theorem nanPhasePersists : Obligations.NanPhasePersists := by
  intro s o hh hl hnan
  have hphase : nextPhase s.cfg o = cnanT s.cfg.flen := by
    rw [nextPhase, fadd_of_fisnan hnan, wrapPhase_cnanT]
  rw [exec_lfoNext hh hl, hphase, phaseAngle_cnanT, fsin_of_not_isFinite isFinite_cnanT]
  rfl

/-! ### Degenerate increments (R118) -/

theorem valUnits_zeroT : valUnits fl zeroT = 0 := by rw [zeroT_eq, valUnits_zeroOf]

theorem roundedUnits_magUnits (x : Sample) : roundedUnits fl (magUnits fl x) 1 = magUnits fl x := by
  obtain ⟨q, hq, hm⟩ := magUnits_form (fl := fl) x
  rw [hm, roundedUnits_of_short hq]

/-- Adding `+0` keeps the value of a finite word, whatever stands above its `FLEN` bits. -/
theorem fadd_zeroT_value (hf : isFinite fl x = true) :
    isFinite fl (fadd fl zeroT x) = true ∧ valUnits fl (fadd fl zeroT x) = valUnits fl x := by
  rcases fadd_of_isFinite isFinite_zeroT hf with ⟨hsum, sign, hadd⟩ | ⟨-, hadd⟩
  · rw [valUnits_zeroT, zero_add] at hsum
    rw [hadd, hsum]
    exact ⟨isFinite_zeroOf sign, valUnits_zeroOf sign⟩
  · rw [valUnits_zeroT, zero_add, natAbs_valUnits] at hadd
    obtain ⟨hfin, hsign, hmag⟩ := roundT_of_lt (sign := decide (valUnits fl x < 0)) Nat.one_pos
      (by rw [roundedUnits_magUnits]; exact magUnits_lt hf)
    rw [roundedUnits_magUnits] at hmag
    have habs := natAbs_valUnits (fl := fl) x
    rw [hadd]
    refine ⟨hfin, ?_⟩
    rw [valUnits, hsign, hmag]
    simp only [decide_eq_true_eq]
    split <;> omega

/-- Adding `+0` changes no comparison. -/
theorem fgt_fadd_zeroT : fgt fl (fadd fl zeroT x) b = fgt fl x b := by
  cases hf : isFinite fl x
  · rcases isFinite_eq_false.mp hf with hnan | hinf
    · rw [fadd_of_fisnan (.inr hnan), fgt_of_fisnan fisnan_cnanT, fgt_of_fisnan hnan]
    · have hadd : fadd fl zeroT x = x := by
        simp [fadd, hinf, fisnan_of_fisinf, fisnan_of_isFinite, fisinf_of_isFinite, isFinite_zeroT]
      rw [hadd]
  · obtain ⟨hfin, hval⟩ := fadd_zeroT_value hf
    simp only [fgt, fisnan_of_isFinite hf, fisnan_of_isFinite hfin, hval]

theorem fadd_zeroT_of_fiszero (h : fiszero fl x = true) : fadd fl zeroT x = zeroT := by
  refine fadd_eq_zeroT isFinite_zeroT (isFinite_of_fiszero h) ?_ fun _ => ?_
  · rw [valUnits_zeroT, valUnits_of_fiszero h, zero_add]
  · rw [zeroT_eq (fl := fl), signBit_zeroOf, Bool.false_and]

/-- Both wraps keep `+0`: it is not greater than 1, and it is its own floor. -/
theorem wrapPhase_zeroT (mode : PhaseWrap) : wrapPhase mode fl zeroT = zeroT := by
  cases mode with
  | reset => rw [wrapPhase, not_fgt_zeroT_oneT]; rfl
  | frac => exact fsub_ffloor_of_integral isFinite_zeroT (by rw [valUnits_zeroT, Int.zero_emod])

theorem nextPhase_of_fiszero_inc (hp : o.phase = zeroT) (hi : fiszero c.flen o.inc = true) : nextPhase c o = zeroT := by
  rw [nextPhase, hp, fadd_zeroT_of_fiszero hi, wrapPhase_zeroT]

theorem nextPhase_of_one_lt_inc (hp : o.phase = zeroT) (hm : c.phaseWrap = .reset)
    (hi : fgt c.flen o.inc (oneT c.flen) = true) : nextPhase c o = zeroT := by
  rw [nextPhase_reset hm, hp, fgt_fadd_zeroT, if_pos hi]

/-- Settles O48: either increment brings the phase back to `+0`, where the angle is `-PI_T`. -/
theorem degenerateIncrementIsStatic : Obligations.DegenerateIncrementIsStatic := by
  intro s o hh hl hp hi
  have hphase : nextPhase s.cfg o = zeroT := by
    rcases hi with hi | ⟨hm, hi⟩
    · exact nextPhase_of_fiszero_inc hp hi
    · exact nextPhase_of_one_lt_inc hp hm hi
  rw [exec_lfoNext_of_static hh hl (hphase.trans hp.symm), hp, phaseAngle_zeroT]
  rfl

end Sys2Proof.Machine

/-! PROOFS. Faults and the halt state (60_exceptions): when each fault is taken (R135 to R142), that fault entry does its four steps
and no more (R133, R134), and what a halted block still does (R132, R144 to R146). -/

namespace Sys2Proof.Machine

variable {s : State}

/-! ### Fault entry and the halt state (R132 to R135, R144 to R146) -/

/-- The state after fault entry, field by field (R133). -/
theorem faulted_eq (c : Cause) (v : BitVec 64) (s : State) : faulted c v s =
    { s with halt := some ⟨c, v⟩, waiting := s.waiting ++ [causeCode c ++ v] } := rfl

/-- A halted block discards a word undecoded (R144). -/
theorem acceptWord_of_halted {w : CommandWord} (hh : s.halt.isSome = true) :
    acceptWord w s = .next (respond statusHalted 0#64 s) :=
  acceptWord_next.mpr (.inl ⟨hh, rfl⟩)

/-- A running block raises `IllegalCommand` for an illegal word (R135). -/
theorem acceptWord_of_illegal {w : CommandWord} {e : Illegal} (hh : s.halt = none) (hd : decode s.cfg.flen w = .error e) :
    acceptWord w s = .next (faulted .illegalCommand ((opField w).setWidth 64) s) :=
  acceptWord_next.mpr (.inr ⟨hh, .inl ⟨e, hd, rfl⟩⟩)

/-- Settles O15: of the three ways a command can end, only a fault halts a running block. -/
theorem faultsArePrecise : Obligations.FaultsArePrecise := by
  intro i s t h hs ht
  rcases exec_outcome h with ⟨hh, -⟩ | ⟨-, ⟨c, v, rfl⟩ | ⟨_, _, _, rfl⟩⟩
  · simp [hs] at hh
  · exact ⟨c, v, faulted_eq c v s⟩
  · exact absurd hs ht

/-- Settles O11: an idle step, a taken response and a discarded word each keep the fault record and both units. -/
theorem onlyResetEndsHalt : Obligations.OnlyResetEndsHalt := by
  intro s t f h hf hno
  rcases step_next.mp h with ⟨-, rfl⟩ | ⟨rest, hp, -⟩ | ⟨rest, -, rfl⟩ | ⟨w, rest, -, ha⟩
  · exact ⟨hf, rfl, rfl⟩
  · exact absurd hp (hno rest)
  · simp [hf]
  · rw [acceptWord_of_halted (by simp [hf])] at ha
    cases ha
    exact ⟨hf, rfl, rfl⟩

/-- Settles O9: the port discards the word. -/
theorem haltedDiscardsEveryWord : Obligations.HaltedDiscardsEveryWord := by
  intro s w rest hh hp
  rw [step_command hp]
  exact acceptWord_of_halted hh

/-- Settles O10: the port takes the fault before any command runs. -/
theorem illegalWordFaults : Obligations.IllegalWordFaults := by
  intro s w rest e hh hp hd
  rw [step_command hp]
  exact acceptWord_of_illegal hh hd

/-! ### Units that are missing or already there (R136, R137) -/

theorem exec_of_dl_none {i : Instr} (hh : s.halt = none) (hd : s.dl = none)
    (hi : operation i ∈ [Operation.dlWrite, .dlRead, .dlReadi]) :
    exec i s = .next (faulted .notConstructed ((opcodeOf (operation i)).setWidth 64) s) := by
  cases i with
  | dlWrite ch x => exact execDlWrite_next.mpr (.inr ⟨hh, .inl ⟨hd, rfl⟩⟩)
  | dlRead ch k => exact execDlRead_next.mpr (.inr ⟨hh, .inl ⟨hd, rfl⟩⟩)
  | dlReadi ch x => exact execDlReadi_next.mpr (.inr ⟨hh, .inl ⟨hd, rfl⟩⟩)
  | dlNew | lfoNew | lfoSetf | lfoNext => simp [operation] at hi

theorem exec_of_lfo_none {i : Instr} (hh : s.halt = none) (hl : s.lfo = none)
    (hi : operation i ∈ [Operation.lfoSetf, .lfoNext]) :
    exec i s = .next (faulted .notConstructed ((opcodeOf (operation i)).setWidth 64) s) := by
  cases i with
  | lfoSetf f => exact execLfoSetf_next.mpr (.inr ⟨hh, .inl ⟨hl, rfl⟩⟩)
  | lfoNext => exact execLfoNext_next.mpr (.inr ⟨hh, .inl ⟨hl, rfl⟩⟩)
  | dlNew | dlWrite | dlRead | dlReadi | lfoNew => simp [operation] at hi

/-- Settles O24: the check for the unit comes first in every command but its `NEW`. -/
theorem unconstructedUnitFaults : Obligations.UnconstructedUnitFaults :=
  ⟨fun _ _ hh hd hi => exec_of_dl_none hh hd hi, fun _ _ hh hl hi => exec_of_lfo_none hh hl hi⟩

/-- Settles O25: a `NEW` looks for its unit before it looks at its operands. -/
theorem secondConstructionFaults : Obligations.SecondConstructionFaults :=
  ⟨fun _ _ _ hh hd => execDlNew_next.mpr (.inr ⟨hh, .inl ⟨hd, rfl⟩⟩),
    fun _ _ _ hh hl => execLfoNew_next.mpr (.inr ⟨hh, .inl ⟨hl, rfl⟩⟩)⟩

/-! ### Operands out of range (R138 to R142) -/

/-- Settles O26: the three operand checks, each after those it stands behind. -/
theorem constructionOperandFaults : Obligations.ConstructionOperandFaults := by
  refine ⟨fun s m hh hd => ?zeroCapacity, fun s n m hh hd hn hbig => ?allocationFailure,
    fun s f sr hh hl hsr => ?badSampleRate⟩
  case zeroCapacity => exact execDlNew_next.mpr (.inr ⟨hh, .inr (.inl ⟨hd, rfl, rfl⟩)⟩)
  case allocationFailure =>
    exact execDlNew_next.mpr (.inr ⟨hh, .inr (.inr (.inl ⟨hd, index_ne_zero hn, hbig, rfl⟩))⟩)
  case badSampleRate => exact execLfoNew_next.mpr (.inr ⟨hh, .inr (.inl ⟨hl, hsr, rfl⟩)⟩)

/-- Settles O27: the check of the channel comes before the address and before the delay. -/
theorem channelOutOfRangeFaults : Obligations.ChannelOutOfRangeFaults := by
  rintro s d ch i hh hd hch (⟨x, rfl⟩ | ⟨k, rfl⟩ | ⟨x, rfl⟩)
  · exact execDlWrite_next.mpr (.inr ⟨hh, .inr ⟨d, hd, .inl ⟨hch, rfl⟩⟩⟩)
  · exact execDlRead_next.mpr (.inr ⟨hh, .inr ⟨d, hd, .inl ⟨hch, rfl⟩⟩⟩)
  · exact execDlReadi_next.mpr (.inr ⟨hh, .inr ⟨d, hd, .inl ⟨hch, rfl⟩⟩⟩)

/-- The model tests the floor of the delay against the limit; by value that is a test of the delay itself, since the limit is an
integer (R142). -/
theorem invalidDelay_eq_true {fl : Flen} {x : Sample} : invalidDelay fl x = true ↔
    isFinite fl x = false ∨ valQ fl x < 0 ∨ 2 ^ 32 - 1 ≤ valQ fl x := by
  have hfloor : (2 ^ 32 - 1 : Int) ≤ floorInt fl x ↔ (2 ^ 32 - 1 : ℚ) ≤ valQ fl x := by
    rw [← floor_valQ, Int.le_floor]
    norm_cast
  rw [← Bool.not_eq_false, invalidDelay_eq_false, not_and_or, not_and_or, Bool.not_eq_true, ← valQ_nonneg, not_le, not_lt,
    hfloor]

/-- Settles O28: under R23 the cursor of a channel in range is there, so the read reaches its test of the delay. -/
theorem invalidDelayFaults : Obligations.InvalidDelayFaults := by
  intro s d ch x hh hd hr hch hx
  obtain ⟨cur, hcur, -⟩ := ring_cursor hr hch
  exact execDlReadi_next.mpr
    (.inr ⟨hh, .inr ⟨d, hd, .inr ⟨hch, cur, hcur, .inl ⟨invalidDelay_eq_true.mpr hx, rfl⟩⟩⟩⟩)

end Sys2Proof.Machine

/-! PROOFS. Reset (70_reset R156, R157) and how a run ends (R169): a reset gives the registers their values after reset and drops the
responses that wait; every other step keeps `HALT` = 0 equivalent to no fault among the responses produced. -/

namespace Sys2Proof.Machine

variable {s t : State}

/-! ### Reset (R156, R157) -/

@[simp] theorem statusReg_resetBlock (s : State) : statusReg (resetBlock s) = 0#32 := by
  simp [statusReg, fcauseField, haltBit, lfvBit, dlvBit]

@[simp] theorem fvalReg_resetBlock (s : State) : fvalReg (resetBlock s) = 0#64 := rfl

/-- Settles O8: the command before the reset leaves the items to come and the responses delivered as they were. -/
theorem stepTakesReset : Obligations.StepTakesReset := by
  refine ⟨fun s rest hp => ?reset, fun s t w rest hp h => ?abandoned⟩
  case reset => exact ⟨_, step_reset hp, statusReg_resetBlock _, fvalReg_resetBlock _, rfl, rfl, rfl, rfl, rfl⟩
  case abandoned =>
    rw [step_command hp] at h
    obtain ⟨hpend, hdel, -⟩ := acceptWord_response h
    exact ⟨_, step_reset hpend, statusReg_resetBlock _, fvalReg_resetBlock _, rfl, rfl, rfl, hdel⟩

/-! ### How a run ends (R169) -/

/-- Every response produced has status `OK`. -/
def AllOk (s : State) : Prop := ∀ r ∈ produced s, statusField r = statusOk

theorem allOk_congr (h : (produced t).Perm (produced s)) : AllOk t ↔ AllOk s :=
  forall_congr' fun _ => imp_congr_left h.mem_iff

theorem allOk_respond (st : BitVec 8) (v : BitVec 64) : AllOk (respond st v s) ↔ AllOk s ∧ st = statusOk := by
  simp only [AllOk, produced_respond, List.forall_mem_append, List.forall_mem_singleton, statusField_responseWord]

/-- The word of a halted block, and the word that faults, add a response that is not `OK`; a word that completes adds one that
is, and leaves the block running. -/
theorem acceptWord_keeps_running_iff_allOk {w : CommandWord} (h : acceptWord w s = .next t) (hinv : s.halt = none ↔ AllOk s) :
    t.halt = none ↔ AllOk t := by
  rcases acceptWord_outcome h with ⟨hh, rfl⟩ | ⟨hh, ⟨c, v, rfl⟩ | ⟨d, o, v, rfl⟩⟩
  · exact iff_of_false (Option.isSome_iff_ne_none.mp hh) fun hok => absurd ((allOk_respond _ _).mp hok).2 (by decide)
  · exact iff_of_false (Option.some_ne_none _) fun hok => causeCode_ne_zero c ((allOk_respond _ _).mp hok).2
  · exact iff_of_true hh ((allOk_respond _ _).mpr ⟨hinv.mp hh, rfl⟩)

theorem step_keeps_running_iff_allOk (h : step s = .next t) (hno : ∀ rest, s.pending ≠ .reset :: rest)
    (hinv : s.halt = none ↔ AllOk s) : t.halt = none ↔ AllOk t := by
  rcases step_next.mp h with ⟨-, rfl⟩ | ⟨rest, hp, -⟩ | ⟨rest, -, rfl⟩ | ⟨w, rest, -, ha⟩
  · exact hinv
  · exact absurd hp (hno rest)
  · rw [takeResponse_halt, allOk_congr (produced_takeResponse _)]
    exact hinv
  · exact acceptWord_keeps_running_iff_allOk ha hinv

/-- Settles O14: `step_keeps_running_iff_allOk`; a run that is over ended well when every response is `OK`. -/
theorem haltIffSomeResponseNotOk : Obligations.HaltIffSomeResponseNotOk := by
  refine ⟨fun c => ⟨fun _ r hr => absurd hr List.not_mem_nil, fun _ => rfl⟩, fun s t h hno hinv => ?_⟩
  have ht := step_keeps_running_iff_allOk h hno hinv
  exact ⟨ht, fun hover => ⟨fun ⟨_, hok⟩ => ht.mpr hok, fun hh => ⟨hover, ht.mp hh⟩⟩⟩

end Sys2Proof.Machine
